-- ==== Sys2Proof/Word.lean ====
section
/-! DEFINITION. The word types of the BCE: W = REGW = 32 (rules R6, R8) and CW = 64 (rule R7). -/

namespace Sys2Proof

/-- One register of the block and one host data word: `W` = `REGW` = 32 bits (rules R6, R8). -/
abbrev Word := BitVec 32

/-- A Bezout coefficient register, X or Y: `CW` = 64 bits, two's complement (rules R7, R23). -/
abbrev DWord := BitVec 64

end Sys2Proof
end

