-- ==== Sys2Proof/Syntax.lean ====
section
/-! DEFINITION. The eight commands (rule R74), the register names of the map (rule R70), the host's transactions
(rule R71) and the host script notation with its macros (rules R79, R80). -/

namespace Sys2Proof

/-- The commands, one constructor per row of the opcode table (rule R74). A command word carries no operands (rule R72):
every command takes its operands from fixed registers (rule R76). -/
inductive Instr where
  | gcd
  | xgcd
  | modinv
  | modexp
  | keygen
  | enc
  | dec
  | keyclr
deriving DecidableEq, Repr

/-- The sixteen words of the register map (rule R70), the reserved word at 0x3C included. -/
inductive Reg where
  | cmd
  | status
  | opa
  | opb
  | opc
  | opd
  | g
  | r
  | xLo
  | xHi
  | yLo
  | yHi
  | kn
  | ke
  | kd
  | reserved
deriving DecidableEq, Repr

/-- The kind of a host access, with the data word of a write (rule R71). -/
inductive AccessKind where
  | read
  | write (v : Word)
deriving DecidableEq, Repr

/-- A host access to the block: its kind, its byte offset from BASE, and how many bytes wide it is. Rule R71's triple is
an access of 4 bytes; the other widths are those rule R54 has the model refuse. -/
structure HostAccess where
  kind : AccessKind
  offset : Nat
  bytes : Nat
deriving DecidableEq, Repr

/-- What the outside world can do to the block: an access of the host, or the reset input, which acts only between host
transactions (rule R211). -/
inductive HostEvent where
  | access (a : HostAccess)
  | reset
deriving DecidableEq, Repr

/-- A line of the host script notation (rule R79): `wr <REG>, <value>`, `rd <REG>`, or a bare mnemonic. -/
inductive Line where
  | wr (reg : Reg) (value : Nat)
  | rd (reg : Reg)
  | command (i : Instr)
deriving DecidableEq, Repr

/-- The macro forms of rule R80. -/
inductive Macro where
  | gcd (a b : Nat)
  | xgcd (a b : Nat)
  | modinv (num md : Nat)
  | modexp (m e n : Nat)
  | keygen (n e p q : Nat)
  | enc (m : Nat)
  | dec (c : Nat)
  | keyclr
  | rdx
  | rdy
deriving DecidableEq, Repr

end Sys2Proof
end

