-- ==== Sys2Proof/WellFormed.lean ====
section
/-! DEFINITION. Which terms of the syntax the spec admits: every command (it has no operand), the host accesses of
rules R53 and R54, and the script lines and macros of rules R79 and R80. -/

namespace Sys2Proof

/-- Every command is well-formed: the command word has no operand field that could hold a wrong value (rule R72). -/
def Instr.wf : Instr → Bool
  | .gcd => true
  | .xgcd => true
  | .modinv => true
  | .modexp => true
  | .keygen => true
  | .enc => true
  | .dec => true
  | .keyclr => true

/-- Rule R54: "The only access width is 32 bits." -/
def HostAccess.wordWide (a : HostAccess) : Bool := a.bytes == 4

/-- Rule R53: "Every access is to an offset that is a multiple of 4." -/
def HostAccess.aligned (a : HostAccess) : Bool := a.offset % 4 == 0

/-- Rule R53: an access "beyond offset 0x3C, is not a BCE access". -/
def HostAccess.inBlock (a : HostAccess) : Bool := decide (a.offset < 0x40)

/-- The accesses that are BCE accesses (rules R50, R51, R53, R54). -/
def HostAccess.wf (a : HostAccess) : Bool := a.wordWide && a.aligned && a.inBlock

/-- Rule R79: a script value is a "natural below 2^32". -/
def scriptValue (n : Nat) : Bool := decide (n < 2 ^ 32)

/-- Rule R79 lists the register names of the notation; the reserved word has none. -/
def Reg.named : Reg → Bool
  | .reserved => false
  | _ => true

/-- The script lines of rule R79. -/
def Line.wf : Line → Bool
  | .wr reg value => reg.named && scriptValue value
  | .rd reg => reg.named
  | .command i => i.wf

/-- The macros of rule R80 whose operands are script values. -/
def Macro.wf : Macro → Bool
  | .gcd a b => scriptValue a && scriptValue b
  | .xgcd a b => scriptValue a && scriptValue b
  | .modinv num md => scriptValue num && scriptValue md
  | .modexp m e n => scriptValue m && scriptValue e && scriptValue n
  | .keygen n e p q => scriptValue n && scriptValue e && scriptValue p && scriptValue q
  | .enc m => scriptValue m
  | .dec c => scriptValue c
  | .keyclr => true
  | .rdx => true
  | .rdy => true

end Sys2Proof
end

