-- ==== Sys2Proof/Decode.lean ====
section
/-! DEFINITION. The command word format CMD32 (rule R72), its decoder and encoder (rules R74, R75, R82), the offsets of
the register map (rule R70), and the host's view of a table row's bits. -/

namespace Sys2Proof

/-- The opcode field OPC4, bits 3:0 (rule R72). -/
def opc4 (v : Word) : BitVec 4 := v.extractLsb' 0 4

/-- The field ZERO, bits 31:4 (rule R72). -/
def zeroField (v : Word) : BitVec 28 := v.extractLsb' 4 28

/-- Why a word is an illegal command word (rules R75, R82). -/
inductive DecodeError where
  /-- A nonzero bit among bits 31:4. -/
  | zeroFieldNotZero
  /-- The word 0x00000000. -/
  | opcodeZero
  /-- The words 0x00000009 to 0x0000000F. -/
  | opcodeUnassigned
deriving DecidableEq, Repr

/-- The decoder, total on every 32-bit word (rules R74, R75, R82). -/
def decode (v : Word) : Except DecodeError Instr :=
  if zeroField v ≠ 0 then .error .zeroFieldNotZero
  else
    match (opc4 v).toNat with
    | 0 => .error .opcodeZero
    | 1 => .ok .gcd
    | 2 => .ok .xgcd
    | 3 => .ok .modinv
    | 4 => .ok .modexp
    | 5 => .ok .keygen
    | 6 => .ok .enc
    | 7 => .ok .dec
    | 8 => .ok .keyclr
    | _ => .error .opcodeUnassigned

/-- The command word of a command (rule R74). -/
def encode : Instr → Word
  | .gcd => 0x00000001
  | .xgcd => 0x00000002
  | .modinv => 0x00000003
  | .modexp => 0x00000004
  | .keygen => 0x00000005
  | .enc => 0x00000006
  | .dec => 0x00000007
  | .keyclr => 0x00000008

/-- The byte offset of a register from BASE (rule R70). -/
def Reg.offset : Reg → Nat
  | .cmd => 0x00
  | .status => 0x04
  | .opa => 0x08
  | .opb => 0x0C
  | .opc => 0x10
  | .opd => 0x14
  | .g => 0x18
  | .r => 0x1C
  | .xLo => 0x20
  | .xHi => 0x24
  | .yLo => 0x28
  | .yHi => 0x2C
  | .kn => 0x30
  | .ke => 0x34
  | .kd => 0x38
  | .reserved => 0x3C

/-- The register that a byte offset names, if it names one (rules R53, R70). -/
def Reg.atOffset (offset : Nat) : Option Reg :=
  match offset with
  | 0x00 => some .cmd
  | 0x04 => some .status
  | 0x08 => some .opa
  | 0x0C => some .opb
  | 0x10 => some .opc
  | 0x14 => some .opd
  | 0x18 => some .g
  | 0x1C => some .r
  | 0x20 => some .xLo
  | 0x24 => some .xHi
  | 0x28 => some .yLo
  | 0x2C => some .yHi
  | 0x30 => some .kn
  | 0x34 => some .ke
  | 0x38 => some .kd
  | 0x3C => some .reserved
  | _ => none

/-- The number that a table row's `nbits` bits `w` stand for, every higher bit of the instruction being 0. -/
def tableBits (nbits w : Nat) : Nat := w % 2 ^ nbits

/-- The command word of a table row's bits: a command word is 32 bits and never longer (rule R78). -/
def tableWord (nbits w : Nat) : Word := BitVec.ofNat 32 (tableBits nbits w)

/-- The instruction the decoder reads from a table row's bits; bits beyond the 32 of a command word make no command. -/
def decodeTableWord (nbits w : Nat) : Option Instr :=
  if tableBits nbits w < 2 ^ 32 then (decode (tableWord nbits w)).toOption else none

end Sys2Proof
end

