-- ==== Sys2Proof/Config.lean ====
section
/-! DEFINITION. What an implementation fixes (the open parameter BASE, rule R8) and what the spec leaves unspecified (the
working registers between commands, rule R36), with the record of those working registers (rules R34, R35). -/

namespace Sys2Proof

/-- The Euclid working registers (rule R34): two rows `(r0, s0, t0)` and `(r1, s1, t1)`, the quotient `q` and the next
remainder `r2`. The coefficients are integers (rule R101 tells a model to compute them in `ℤ`). -/
structure EuclidRegs where
  r0 : Nat
  s0 : Int
  t0 : Int
  r1 : Nat
  s1 : Int
  t1 : Int
  q : Nat
  r2 : Nat
deriving DecidableEq, Repr, Inhabited

/-- The exponentiation working registers (rule R35), with the product register and KEYGEN's `phi`. -/
structure PowerRegs where
  acc : Nat
  base : Nat
  ex : Nat
  md : Nat
  prod : Nat
  phi : Nat
deriving DecidableEq, Repr, Inhabited

/-- All hidden working registers of the engine (rules R34, R35); rule R37 says there is no other hidden state. -/
structure WorkRegs where
  euclid : EuclidRegs
  power : PowerRegs
deriving DecidableEq, Repr, Inhabited

/-- `BASE / 4`. BASE is open, a multiple of 4 (rule R56, decision D4): no value of it can be proved. -/
opaque Config.baseWord : Nat

/-- `BASE`, the byte address of the register block (rules R8, R56). -/
def Config.base : Nat := 4 * Config.baseWord

/-- FREE VALUE (log entry 3). What the working registers hold after the `k`-th command: rule R36 says they "hold
unspecified values between commands". -/
opaque Config.freeWork : Nat → WorkRegs

end Sys2Proof
end

