-- ==== Sys2Proof/Machine/State.lean ====
section
/-! DEFINITION. The state of the BCE as plain data: the architectural registers (rule R20), the hidden working registers
(rules R34, R35), the host's side of the interface (rules R9, R71, R218), the reasons a step can stop, and the state after
reset (rules R38, R210). -/

namespace Sys2Proof.Machine

/-- The causes of STATUS.CAUSE (rule R181). Codes 7 to 15 are never produced, so they have no name here. -/
inductive Cause where
  | none
  | illegalCmd
  | divByZero
  | notInvertible
  | operandRange
  | overflow
  | noKey
deriving DecidableEq, Repr

/-- The architectural state, exactly the registers of rule R20: operands, results, key slot and the fields of STATUS.
CMD is a port and stores nothing (rule R28). -/
structure Arch where
  opa : Word
  opb : Word
  opc : Word
  opd : Word
  g : Word
  r : Word
  x : DWord
  y : DWord
  kn : Word
  ke : Word
  kd : Word
  done : Bool
  err : Bool
  kvalid : Bool
  cause : Cause
  lastop : BitVec 4
deriving DecidableEq, Repr

/-- The host's side of the interface, the MODEL'S OWN data (log entries 1 and 2): the events still to come, in their order
of arrival (rule R59), and the words the host's reads have returned, oldest first (rule R218). -/
structure HostPort where
  pending : List HostEvent
  returned : List Word
deriving DecidableEq, Repr

/-- The machine. `freeIndex` is the MODEL'S OWN counter: it picks the next free value (log entry 3). -/
structure State where
  arch : Arch
  work : WorkRegs
  freeIndex : Nat
  host : HostPort
deriving DecidableEq, Repr

/-- Reasons for the machine to stop with a fault: none exist. A failed command reports its cause in STATUS and goes on
(rules R180, R186), and the engine raises no bus error (log entry 8). -/
inductive Fault where
deriving DecidableEq, Repr

/-- Reasons for the model to give a step no meaning. -/
inductive Refusal where
  /-- Raised by the dispatcher for an instruction without a meaning: none is left. Safe. -/
  | notModelled (mnemonic : String)
  /-- Raised by a host access that is not 32 bits wide: rule R54, "refused like a misaligned one". Safe. -/
  | accessWidth
  /-- Raised by a host access at an offset that is no multiple of 4: rule R53, "the model refuses it". Safe. -/
  | misalignedAccess
  /-- Raised by a host access beyond offset 0x3C: rule R53, "the model refuses it". Safe. -/
  | outsideBlock
deriving DecidableEq, Repr

/-- Every architectural register is zero after reset (rules R38, R210). -/
def Arch.reset : Arch where
  opa := 0
  opb := 0
  opc := 0
  opd := 0
  g := 0
  r := 0
  x := 0
  y := 0
  kn := 0
  ke := 0
  kd := 0
  done := false
  err := false
  kvalid := false
  cause := .none
  lastop := 0

/-- The working registers of `State.reset`. DESIGN CHOICE (log entry 4): rule R38 says "unspecified". -/
def workAtReset : WorkRegs where
  euclid := { r0 := 0, s0 := 0, t0 := 0, r1 := 0, s1 := 0, t1 := 0, q := 0, r2 := 0 }
  power := { acc := 0, base := 0, ex := 0, md := 0, prod := 0, phi := 0 }

/-- The machine right after reset, no host event having arrived (rules R38, R210). -/
def State.reset : State where
  arch := Arch.reset
  work := workAtReset
  freeIndex := 0
  host := { pending := [], returned := [] }

end Sys2Proof.Machine
end

