-- ==== Sys2Proof/Machine/Flags.lean ====
section
/-! DEFINITION. The cause codes (rule R181), the STATUS word (rules R29, R73), and the two ways a CMD write sets the flags
(rules R26, R186, R188). -/

namespace Sys2Proof.Machine

/-- The cause codes (rule R181). -/
def Cause.code : Cause → BitVec 4
  | .none => 0
  | .illegalCmd => 1
  | .divByZero => 2
  | .notInvertible => 3
  | .operandRange => 4
  | .overflow => 5
  | .noKey => 6

/-- The STATUS word: bits 31:12 zero, LASTOP, CAUSE, bit 3 zero, KVALID, ERR, DONE (rules R29, R73). -/
def statusWord (a : Arch) : Word :=
  0#20 ++ a.lastop ++ a.cause.code ++ 0#1 ++ BitVec.ofBool a.kvalid ++ BitVec.ofBool a.err ++ BitVec.ofBool a.done

/-- STATUS of a command that completed (rule R188). -/
def flagSuccess (a : Arch) : Arch := { a with done := true, err := false, cause := .none }

/-- STATUS of a command that raised `c` (rule R186). -/
def flagError (c : Cause) (a : Arch) : Arch := { a with done := false, err := true, cause := c }

/-- LASTOP, written by every CMD write before its legality is tested (rule R82). -/
def setLastop (op : BitVec 4) (a : Arch) : Arch := { a with lastop := op }

end Sys2Proof.Machine
end

