-- ==== Sys2Proof/Machine/Operands.lean ====
section
/-! DEFINITION. Operand assembly (rule R76), the narrowing of a natural result to its register (rule R22), and the
two's-complement read-out of X and Y (rules R10, R52, R77, R102). -/

namespace Sys2Proof.Machine

/-- OPA read as a natural, never sign-extended (rule R76). -/
def operandA (s : State) : Nat := s.arch.opa.toNat

/-- OPB read as a natural (rule R76). -/
def operandB (s : State) : Nat := s.arch.opb.toNat

/-- OPC read as a natural (rule R76). -/
def operandC (s : State) : Nat := s.arch.opc.toNat

/-- OPD read as a natural (rule R76). -/
def operandD (s : State) : Nat := s.arch.opd.toNat

/-- A natural as the contents of a 32-bit register (rule R22). -/
def wordOf (n : Nat) : Word := BitVec.ofNat 32 n

/-- `tc_64`, the two's-complement encoding of an integer (rule R10). -/
def tc64 (z : Int) : DWord := BitVec.ofInt 64 z

/-- Bits 31:0 of a 64-bit register, the word at the lower offset (rules R23, R52). -/
def loWord (d : DWord) : Word := d.extractLsb' 0 32

/-- Bits 63:32 of a 64-bit register, the word at the higher offset (rules R23, R52). -/
def hiWord (d : DWord) : Word := d.extractLsb' 32 32

/-- The integer the host assembles from the two words it reads: `val_64({hi, lo})` (rule R77). -/
def assemble (hi lo : Word) : Int := BitVec.toInt (hi ++ lo)

end Sys2Proof.Machine
end

