-- ==== Sys2Proof/Machine/Ops.lean ====
section
/-! DEFINITION. The shared operations of the machine: the end of a command, success and error entry (rules R186, R188),
the registers as the host reads and writes them (rules R50, R51, R70, R81), the address map (rule R56), and the reset
transition (rules R210, R211). -/

namespace Sys2Proof.Machine

/-- What one command, one host event or one step answers. -/
abbrev Result := Host.Outcome State Fault Refusal

/-- The end of a command: the architectural state becomes `a`, and the working registers hold unspecified values from here
on (rule R36). -/
def endCommand (a : Arch) (s : State) : State :=
  { s with arch := a, work := Config.freeWork s.freeIndex, freeIndex := s.freeIndex + 1 }

/-- Error entry, the one shared operation for every cause: STATUS records it and nothing else changes (rules R186, R187).
There is no return from it (rule R189). -/
def raise (c : Cause) (s : State) : Result := .next (endCommand (flagError c s.arch) s)

/-- Successful completion: the results in `a` and the flags change together (rule R188). -/
def complete (a : Arch) (s : State) : Result := .next (endCommand (flagSuccess a) s)

/-- The word that a read of a register returns (rules R28, R50, R70, R81). -/
def regWord (a : Arch) : Reg → Word
  | .cmd => 0
  | .status => statusWord a
  | .opa => a.opa
  | .opb => a.opb
  | .opc => a.opc
  | .opd => a.opd
  | .g => a.g
  | .r => a.r
  | .xLo => loWord a.x
  | .xHi => hiWord a.x
  | .yLo => loWord a.y
  | .yHi => hiWord a.y
  | .kn => a.kn
  | .ke => a.ke
  | .kd => a.kd
  | .reserved => 0

/-- The plain effect of a host write: the four operand registers take the word, every other register ignores it (rules
R21, R51, R81). What a write of CMD runs is `cmdWrite` in Machine/Bus.lean. -/
def storeReg (a : Arch) (v : Word) : Reg → Arch
  | .opa => { a with opa := v }
  | .opb => { a with opb := v }
  | .opc => { a with opc := v }
  | .opd => { a with opd := v }
  | .cmd => a
  | .status => a
  | .g => a
  | .r => a
  | .xLo => a
  | .xHi => a
  | .yLo => a
  | .yHi => a
  | .kn => a
  | .ke => a
  | .kd => a
  | .reserved => a

/-- Which register an access reaches, or why the model refuses it (rules R53, R54). -/
def resolveAccess (a : HostAccess) : Except Refusal Reg :=
  if a.wordWide = false then .error .accessWidth
  else if a.aligned = false then .error .misalignedAccess
  else
    match Reg.atOffset a.offset with
    | some reg => .ok reg
    | none => .error .outsideBlock

/-- The byte address of an offset in the platform's address space (rule R56). -/
def busAddress (offset : Nat) : Nat := Config.base + offset

/-- The BCE access of an access at a platform address: the block is the 64 bytes `[BASE, BASE + 0x3F]`, and everything
outside it is the platform's (rule R56). -/
def accessAtAddress (kind : AccessKind) (address bytes : Nat) : Option HostAccess :=
  if Config.base ≤ address ∧ address ≤ Config.base + 0x3F then
    some { kind := kind, offset := address - Config.base, bytes := bytes }
  else none

/-- The reset transition: every architectural register is zero and the working registers are unspecified (rules R210,
R211). The host's own data is outside the block (rule R39). -/
def resetInput (s : State) : State := endCommand Arch.reset s

/-- A word returned to the host by a read: the only thing a read does (rules R50, R218). -/
def returnWord (v : Word) (s : State) : State :=
  { s with host := { s.host with returned := s.host.returned ++ [v] } }

/-- A 32-bit access (rule R71). -/
def wordAccess (kind : AccessKind) (offset : Nat) : HostEvent :=
  .access { kind := kind, offset := offset, bytes := 4 }

/-- The host event that issues a command word: `RegWrite(0x00, v)` (rules R28, R51). -/
def commandEvent (v : Word) : HostEvent := wordAccess (.write v) 0x00

/-- The state with one more host event, to arrive before all others. -/
def withEvent (e : HostEvent) (s : State) : State :=
  { s with host := { s.host with pending := e :: s.host.pending } }

end Sys2Proof.Machine
end

