-- ==== Sys2Proof/Machine/Euclid.lean ====
section
/-! DEFINITION. The Euclidean cores on the working registers: `gcd_core` (rule R104), `xgcd_core` (rule R105) with its
stepwise form (rule R115), the residue (rule R103) and the modular-inverse unit that MODINV and KEYGEN share (rules R113,
R146). -/

namespace Sys2Proof.Machine

/-- The bound on the passes of both Euclidean loops, `2·W` (rule R104). -/
def euclidPasses : Nat := 64

/-- The loop of `gcd_core` (rule R104); it uses `r0`, `r1`, `r2` only (rule R34). -/
def gcdLoop : Nat → EuclidRegs → EuclidRegs
  | 0, w => w
  | fuel + 1, w =>
    let r2 := w.r0 % w.r1
    if r2 = 0 then { w with r2 := r2 }
    else gcdLoop fuel { w with r0 := w.r1, r1 := r2, r2 := r2 }

/-- `gcd_core(a, b)` (rule R104); the result is in `r1`. -/
def gcdCore (a b : Nat) (w : EuclidRegs) : EuclidRegs := gcdLoop euclidPasses { w with r0 := a, r1 := b }

/-- The division of one pass: `q` and `r2 = r0 - q·r1` (rules R100, R105). -/
def euclidDivide (w : EuclidRegs) : EuclidRegs :=
  { w with q := w.r0 / w.r1, r2 := w.r0 - w.r0 / w.r1 * w.r1 }

/-- The simultaneous six-fold assignment of rule R105, from the `q` and `r2` of this pass. -/
def euclidShift (w : EuclidRegs) : EuclidRegs :=
  { w with
    r0 := w.r1, s0 := w.s1, t0 := w.t1,
    r1 := w.r2, s1 := w.s0 - w.q * w.s1, t1 := w.t0 - w.q * w.t1 }

/-- The loop of `xgcd_core`, one `euclid_step` a pass (rules R105, R115). -/
def xgcdLoop : Nat → EuclidRegs → EuclidRegs
  | 0, w => w
  | fuel + 1, w =>
    if (euclidDivide w).r2 = 0 then euclidDivide w
    else xgcdLoop fuel (euclidShift (euclidDivide w))

/-- The seeds: the row of `a` is (1, 0) and the row of `b` is (0, 1) (rules R105, R112; conflict C1). -/
def xgcdSeed (a b : Nat) (w : EuclidRegs) : EuclidRegs :=
  { w with r0 := a, s0 := 1, t0 := 0, r1 := b, s1 := 0, t1 := 1 }

/-- `xgcd_core(a, b)` (rule R105); `(g, x, y)` is left in `(r1, s1, t1)`. -/
def xgcdCore (a b : Nat) (w : EuclidRegs) : EuclidRegs := xgcdLoop euclidPasses (xgcdSeed a b w)

/-- `emod(z, m)`, the residue of an integer in `[0, m)` (rules R11, R103). -/
def residue (z : Int) (m : Nat) : Nat := (z % (m : Int)).toNat

/-- The modular-inverse unit: MODINV's rule from its zero test to its result (rule R113), which KEYGEN applies to
`(e, phi)` (rule R146). -/
def inverseUnit (num m : Nat) (w : EuclidRegs) : Except Cause Nat :=
  if m = 0 then .error .divByZero
  else if (xgcdCore num m w).r1 ≠ 1 then .error .notInvertible
  else .ok (residue (xgcdCore num m w).s1 m)

end Sys2Proof.Machine
end

