-- ==== Sys2Proof/Machine/GcdFamily.lean ====
section
/-! DEFINITION. The meanings of GCD, XGCD and MODINV (rules R108, R110, R113). LASTOP is written by the CMD write that
selects the command (rule R82, Machine/Bus.lean). -/

namespace Sys2Proof.Machine

/-- GCD (rule R108). -/
def execGcd (s : State) : Result :=
  if operandB s = 0 then raise .divByZero s
  else complete { s.arch with g := wordOf (gcdCore (operandA s) (operandB s) s.work.euclid).r1 } s

/-- XGCD (rule R110): G, X and Y are written together. -/
def execXgcd (s : State) : Result :=
  if operandB s = 0 then raise .divByZero s
  else
    let w := xgcdCore (operandA s) (operandB s) s.work.euclid
    complete { s.arch with g := wordOf w.r1, x := tc64 w.s1, y := tc64 w.t1 } s

/-- MODINV (rule R113): R only. -/
def execModinv (s : State) : Result :=
  match inverseUnit (operandA s) (operandB s) s.work.euclid with
  | .error c => raise c s
  | .ok inv => complete { s.arch with r := wordOf inv } s

end Sys2Proof.Machine
end

