-- ==== Sys2Proof/Machine/Power.lean ====
section
/-! DEFINITION. Modular multiplication and the exponentiation core on the working registers (rules R140, R141), the power
unit that MODEXP, ENC and DEC share (rules R143, R149, R150), and KEYGEN's product `phi` (rule R145). -/

namespace Sys2Proof.Machine

/-- The bound on the passes of the exponentiation loop, `bitlen(e) ≤ 32` (rule R142). -/
def powerPasses : Nat := 32

/-- `acc <- (acc · base) mod md` through the product register (rules R140, R141). -/
def mulAcc (w : PowerRegs) : PowerRegs := { w with prod := w.acc * w.base, acc := w.acc * w.base % w.md }

/-- `base <- (base · base) mod md` through the product register (rules R140, R141). -/
def squareBase (w : PowerRegs) : PowerRegs := { w with prod := w.base * w.base, base := w.base * w.base % w.md }

/-- `ex <- ex div 2` (rule R141). -/
def halveExponent (w : PowerRegs) : PowerRegs := { w with ex := w.ex / 2 }

/-- One pass of the loop of rule R141. -/
def powerPass (w : PowerRegs) : PowerRegs :=
  halveExponent (squareBase (if w.ex % 2 = 1 then mulAcc w else w))

/-- The loop of `modexp_core`, left when the exponent is zero (rule R141). -/
def powerLoop : Nat → PowerRegs → PowerRegs
  | 0, w => w
  | fuel + 1, w => if w.ex = 0 then w else powerLoop fuel (powerPass w)

/-- The initial values of `modexp_core` (rule R141). -/
def powerSeed (m e n : Nat) (w : PowerRegs) : PowerRegs :=
  { w with md := n, acc := 1 % n, base := m % n, ex := e }

/-- `modexp_core(m, e, n)` (rule R141); the result is in `acc`. -/
def modexpCore (m e n : Nat) (w : PowerRegs) : PowerRegs := powerLoop powerPasses (powerSeed m e n w)

/-- The power unit: the zero-modulus test and `modexp_core` (rules R143, R149, R150, R182). -/
def powerUnit (m e n : Nat) (w : PowerRegs) : Except Cause Nat :=
  if n = 0 then .error .divByZero else .ok (modexpCore m e n w).acc

/-- `phi = (p - 1)·(q - 1)`, formed exactly in the product register; `p` and `q` are not zero here (rule R145). -/
def formPhi (p q : Nat) (w : PowerRegs) : PowerRegs :=
  { w with prod := (p - 1) * (q - 1), phi := (p - 1) * (q - 1) }

end Sys2Proof.Machine
end

