-- ==== Sys2Proof/Machine/RsaFamily.lean ====
section
/-! DEFINITION. The meanings of MODEXP, KEYGEN, ENC, DEC and KEYCLR (rules R143, R146, R149, R150, R151). LASTOP is written
by the CMD write that selects the command (rule R82, Machine/Bus.lean). -/

namespace Sys2Proof.Machine

/-- MODEXP (rule R143). -/
def execModexp (s : State) : Result :=
  match powerUnit (operandA s) (operandB s) (operandC s) s.work.power with
  | .error c => raise c s
  | .ok v => complete { s.arch with r := wordOf v } s

/-- KEYGEN (rule R146): the tests in the order of rule R185, then KN, KE, KD and KVALID together. -/
def execKeygen (s : State) : Result :=
  if operandC s = 0 ∨ operandD s = 0 then raise .operandRange s
  else
    let phi := (formPhi (operandC s) (operandD s) s.work.power).phi
    if 2 ^ 32 ≤ phi then raise .overflow s
    else
      match inverseUnit (operandB s) phi s.work.euclid with
      | .error c => raise c s
      | .ok d => complete { s.arch with kn := s.arch.opa, ke := s.arch.opb, kd := wordOf d, kvalid := true } s

/-- The body that ENC and DEC share: OPA to the power of a key exponent, modulo KN, the key test coming first (rules R149,
R150, R185). -/
def keyPower (exponent : Word) (s : State) : Result :=
  if s.arch.kvalid = false then raise .noKey s
  else
    match powerUnit (operandA s) exponent.toNat s.arch.kn.toNat s.work.power with
    | .error c => raise c s
    | .ok v => complete { s.arch with r := wordOf v } s

/-- ENC (rule R149): the public exponent. -/
def execEnc (s : State) : Result := keyPower s.arch.ke s

/-- DEC (rule R150): the private exponent. -/
def execDec (s : State) : Result := keyPower s.arch.kd s

/-- KEYCLR (rule R151). -/
def execKeyclr (s : State) : Result :=
  complete { s.arch with kn := 0, ke := 0, kd := 0, kvalid := false } s

end Sys2Proof.Machine
end

