-- ==== Sys2Proof/Machine/Bus.lean ====
section
/-! DEFINITION. The host's transactions: the CMD write (rule R82), `RegRead` and `RegWrite` (rules R50, R51), the accesses
the model refuses (rules R53, R54), and the reset input (rule R211). -/

namespace Sys2Proof.Machine

/-- LASTOP as the decode of the command word `v` leaves it (rule R82). -/
def latchLastop (v : Word) (s : State) : State := { s with arch := setLastop (opc4 v) s.arch }

/-- `RegWrite(0x00, v)`: LASTOP is written before and regardless of the legality test, then the word is rejected with
ILLEGAL_CMD or its command runs to completion (rules R58, R75, R82). -/
def cmdWrite (v : Word) (s : State) : Result :=
  match decode v with
  | .error _ => raise .illegalCmd (latchLastop v s)
  | .ok i => exec i (latchLastop v s)

/-- `RegRead(off)` for the register at `off` (rule R50). -/
def regRead (reg : Reg) (s : State) : Result := .next (returnWord (regWord s.arch reg) s)

/-- `RegWrite(off, v)` for the register at `off` (rules R51, R81). -/
def regWrite (reg : Reg) (v : Word) (s : State) : Result :=
  if reg = .cmd then cmdWrite v s else .next { s with arch := storeReg s.arch v reg }

/-- One host access: a transaction of the block, or refused under its own name (rules R50, R51, R53, R54). -/
def hostAccess (a : HostAccess) (s : State) : Result :=
  match resolveAccess a with
  | .error why => .refused why
  | .ok reg =>
    match a.kind with
    | .read => regRead reg s
    | .write v => regWrite reg v s

/-- One host event (rules R9, R211). -/
def hostEvent (e : HostEvent) (s : State) : Result :=
  match e with
  | .access a => hostAccess a s
  | .reset => .next (resetInput s)

/-- The block's next move: the oldest event that has arrived is performed, and with none the engine does nothing (rules
R25, R59, R210). -/
def performNext (s : State) : Result :=
  match s.host.pending with
  | [] => .next s
  | e :: rest => hostEvent e { s with host := { s.host with pending := rest } }

end Sys2Proof.Machine
end

