-- ==== Sys2Proof/Machine/Step.lean ====
section
/-! DEFINITION. One step of the machine, which is one host event (rules R9, R58, R59), and how a command word is placed so
that the next step runs it. -/

namespace Sys2Proof.Machine

def step (s : State) : Host.Outcome State Fault Refusal := performNext s

/-- The state in which the host's next transaction is the CMD write of a table row's word (log entry 6). -/
def State.withFetchWord (s : State) (nbits w : Nat) : State := withEvent (commandEvent (tableWord nbits w)) s

end Sys2Proof.Machine
end

