-- ==== Sys2Proof/Machine/Script.lean ====
section
/-! DEFINITION. The host script notation as host events: a line is one transaction (rule R79), a macro is a list of lines
(rule R80). -/

namespace Sys2Proof.Machine

/-- The transaction of a script line (rule R79). -/
def lineEvent : Line → HostEvent
  | .wr reg value => wordAccess (.write (wordOf value)) reg.offset
  | .rd reg => wordAccess .read reg.offset
  | .command i => commandEvent (encode i)

/-- The expansion of a macro (rule R80). -/
def expandMacro : Macro → List Line
  | .gcd a b => [.wr .opa a, .wr .opb b, .command .gcd]
  | .xgcd a b => [.wr .opa a, .wr .opb b, .command .xgcd]
  | .modinv num md => [.wr .opa num, .wr .opb md, .command .modinv]
  | .modexp m e n => [.wr .opa m, .wr .opb e, .wr .opc n, .command .modexp]
  | .keygen n e p q => [.wr .opa n, .wr .opb e, .wr .opc p, .wr .opd q, .command .keygen]
  | .enc m => [.wr .opa m, .command .enc]
  | .dec c => [.wr .opa c, .command .dec]
  | .keyclr => [.command .keyclr]
  | .rdx => [.rd .xLo, .rd .xHi]
  | .rdy => [.rd .yLo, .rd .yHi]

/-- The host events of a macro, in their order. -/
def macroEvents (m : Macro) : List HostEvent := (expandMacro m).map lineEvent

end Sys2Proof.Machine
end

