-- ==== Sys2Proof/Safety.lean ====
section
/-! DEFINITION. What the spec promises of every state a run reaches: the invariant of the architectural registers, the
bounds of the Bezout coefficients (rule R106), and the vocabulary in which statements name a command's write and compare states. -/

namespace Sys2Proof.Machine

/-- Which values LASTOP can have beside a cause: the column "raised by" of rule R181. ILLEGAL_CMD keeps the low bits of any
word (rule R75). -/
def causeFitsLastop (c : Cause) (lastop : Nat) : Bool :=
  match c with
  | .none => decide (lastop ≤ 8)
  | .illegalCmd => true
  | .divByZero => decide (1 ≤ lastop ∧ lastop ≤ 7)
  | .notInvertible => decide (lastop = 3 ∨ lastop = 5)
  | .operandRange => decide (lastop = 5)
  | .overflow => decide (lastop = 5)
  | .noKey => decide (lastop = 6 ∨ lastop = 7)

/-- `d` is what KEYGEN derives from some operands `e`, `p`, `q` that it accepts (rules R146, R147). -/
def KeyPairOf (e d : Nat) : Prop :=
  ∃ p q : Nat, 1 < p ∧ 1 < q ∧ p < 2 ^ 32 ∧ q < 2 ^ 32 ∧ (p - 1) * (q - 1) < 2 ^ 32 ∧
    d < (p - 1) * (q - 1) ∧ e * d % ((p - 1) * (q - 1)) = 1 % ((p - 1) * (q - 1))

/-- A Bezout register holds a value in `[−(2^31 − 1), 2^31 − 1]` (rules R77, R106). -/
def InCoefficientRange (d : DWord) : Prop := -(2 ^ 31 - 1) ≤ d.toInt ∧ d.toInt ≤ 2 ^ 31 - 1

/-- Rule R106: every coefficient pair `(s, t)` that `xgcd_core(a, b)` holds at any time, the seeds included, satisfies
`|s| ≤ max(1, b / g)` and `|t| ≤ max(1, a / g)` with `g = gcdℕ(a, b)`. -/
structure RowsWithinBounds (a b : Nat) (w : EuclidRegs) : Prop where
  s0 : |w.s0| ≤ (max 1 (b / Nat.gcd a b) : Nat)
  t0 : |w.t0| ≤ (max 1 (a / Nat.gcd a b) : Nat)
  s1 : |w.s1| ≤ (max 1 (b / Nat.gcd a b) : Nat)
  t1 : |w.t1| ≤ (max 1 (a / Nat.gcd a b) : Nat)

/-- Rule R106: the stronger bounds of the pair that `xgcd_core(a, b)` returns, `|x| ≤ max(1, floor(b / (2·g)))` and
`|y| ≤ max(1, floor(a / (2·g)))`. -/
structure PairWithinBounds (a b : Nat) (x y : Int) : Prop where
  x : |x| ≤ (max 1 (b / (2 * Nat.gcd a b)) : Nat)
  y : |y| ≤ (max 1 (a / (2 * Nat.gcd a b)) : Nat)

/-- The result registers and the key slot hold their reset values. -/
def ResultsAtReset (a : Arch) : Prop :=
  a.g = 0 ∧ a.r = 0 ∧ a.x = 0 ∧ a.y = 0 ∧ a.kn = 0 ∧ a.ke = 0 ∧ a.kd = 0 ∧ a.kvalid = false ∧ a.lastop = 0

/-- The invariant of the architectural registers. -/
structure ArchInv (a : Arch) : Prop where
  /-- Rule R26: DONE and ERR "are never both 1". -/
  doneOrErr : ¬(a.done = true ∧ a.err = true)
  /-- Rules R29, R181, R186, R188: CAUSE is 0 exactly when the last command did not fail. -/
  errIffCause : a.err = true ↔ a.cause ≠ .none
  /-- Rule R26: both are 0 only "until the first command", so nothing but operands can have been written. -/
  quietIsFresh : a.done = false → a.err = false → ResultsAtReset a
  /-- Rule R82: a command that succeeded is one of the eight. -/
  doneNamesCommand : a.done = true → 1 ≤ a.lastop.toNat ∧ a.lastop.toNat ≤ 8
  /-- Rule R181: only the commands of its row raise a cause. -/
  causeFits : causeFitsLastop a.cause a.lastop.toNat = true
  /-- Rules R30, R31: "When KVALID = 0 they read 0." -/
  emptySlot : a.kvalid = false → a.kn = 0 ∧ a.ke = 0 ∧ a.kd = 0
  /-- Rules R27, R31: KVALID = 1 says that the slot holds a key pair of a successful KEYGEN. -/
  heldPair : a.kvalid = true → KeyPairOf a.ke.toNat a.kd.toNat
  /-- Rules R77, R106. -/
  xRange : InCoefficientRange a.x
  /-- Rules R77, R106. -/
  yRange : InCoefficientRange a.y

/-- The invariant of the machine. It asks nothing of the working registers (rule R36) or of the host. -/
def StateInv (s : State) : Prop := ArchInv s.arch

/-- The state in which the host's next transaction writes the word `v` to CMD. -/
def writingCmd (v : Word) (s : State) : State := withEvent (commandEvent v) s

/-- The state in which the host's next transaction reads the word at `offset`. -/
def reading (offset : Nat) (s : State) : State := withEvent (wordAccess .read offset) s

/-- The state in which the host's next transaction writes `v` at `offset`. -/
def writing (offset : Nat) (v : Word) (s : State) : State := withEvent (wordAccess (.write v) offset) s

/-- The state with another operand in OPA, as after `wr OPA, m` (rule R79). -/
def withOpa (m : Word) (s : State) : State := { s with arch := { s.arch with opa := m } }

/-- Two states agree on everything a command reports in STATUS, LASTOP apart (rules R186, R188). -/
def SameOutcome (t u : State) : Prop :=
  t.arch.done = u.arch.done ∧ t.arch.err = u.arch.err ∧ t.arch.cause = u.arch.cause

/-- `t` is `s` with the error entry of cause `c` and nothing else of the architectural state or the host changed (rules
R186, R187). -/
def FailedWith (c : Cause) (s t : State) : Prop :=
  t.arch = { s.arch with done := false, err := true, cause := c } ∧ t.host = s.host

/-- Writing the word `v` to CMD in `s` answers a next state that is `t` in the architectural state and the host, with
LASTOP = `op` (rules R51, R82). -/
def CmdWriteGives (v : Word) (op : BitVec 4) (s t : State) : Prop :=
  ∃ u, step (writingCmd v s) = .next u ∧ u.arch = { t.arch with lastop := op } ∧ u.host = t.host

/-- The oldest host event that has arrived is `e`. -/
def HeadIs (e : HostEvent) (s : State) : Prop := s.host.pending.head? = some e

end Sys2Proof.Machine
end

