-- ==== Sys2Proof/Certificates/Slice0/Obligations.lean ====
section
/-! DEFINITION. The statements for the provers, one def Obligations.<Name> : Prop each. -/

open Sys2Proof Sys2Proof.Machine

/-! ### Encoding and decoding -/

/-- The eight command words written out bit by bit (rules R72, R74), and three illegal words (rule R75). -/
def Obligations.CommandWordsDecodeAsTheTableSays : Prop :=
  decode 0b00000000000000000000000000000001#32 = .ok .gcd ∧
  decode 0b00000000000000000000000000000010#32 = .ok .xgcd ∧
  decode 0b00000000000000000000000000000011#32 = .ok .modinv ∧
  decode 0b00000000000000000000000000000100#32 = .ok .modexp ∧
  decode 0b00000000000000000000000000000101#32 = .ok .keygen ∧
  decode 0b00000000000000000000000000000110#32 = .ok .enc ∧
  decode 0b00000000000000000000000000000111#32 = .ok .dec ∧
  decode 0b00000000000000000000000000001000#32 = .ok .keyclr ∧
  decode 0b00000000000000000000000000000000#32 = .error .opcodeZero ∧
  decode 0b00000000000000000000000000001001#32 = .error .opcodeUnassigned ∧
  decode 0b10000000000000000000000000000001#32 = .error .zeroFieldNotZero

/-- Rule R74: a word selects a command only if it equals the value in the table exactly; and decoding a command's encoding
gives the command back. -/
def Obligations.WordSelectsACommandExactlyWhenItIsItsWord : Prop :=
  (∀ v : Word,
    (decode v = .ok .gcd ↔ v = 0x00000001) ∧ (decode v = .ok .xgcd ↔ v = 0x00000002) ∧
    (decode v = .ok .modinv ↔ v = 0x00000003) ∧ (decode v = .ok .modexp ↔ v = 0x00000004) ∧
    (decode v = .ok .keygen ↔ v = 0x00000005) ∧ (decode v = .ok .enc ↔ v = 0x00000006) ∧
    (decode v = .ok .dec ↔ v = 0x00000007) ∧ (decode v = .ok .keyclr ↔ v = 0x00000008)) ∧
  (∀ (v : Word) (i : Instr), decode v = .ok i ↔ v = encode i) ∧
  (∀ i : Instr, i.wf = true → decode (encode i) = .ok i)

/-- Rule R75: a word that is none of the eight runs nothing; it changes DONE, ERR, CAUSE and LASTOP only. -/
def Obligations.IllegalWordsReportIllegalCmdAndRunNothing : Prop :=
  ∀ (s : State) (v : Word), v = 0 ∨ 8 < v.toNat →
    ∃ t, step (writingCmd v s) = .next t ∧
      t.arch = { s.arch with
        done := false, err := true, cause := .illegalCmd, lastop := BitVec.ofNat 4 (v.toNat % 16) } ∧
      t.host = s.host

/-- Rule R82: a CMD write sets LASTOP to bits 3:0 of its word whatever the word is, tests the word, and then either raises
ILLEGAL_CMD or runs the command whose word it is, on the operands as they stand. -/
def Obligations.CmdWriteLatchesLastopThenTestsThenRuns : Prop :=
  ∀ (s latched : State) (v : Word),
    latched = { s with arch := { s.arch with lastop := v.extractLsb' 0 4 } } →
    (v.extractLsb' 4 28 ≠ 0 ∨ (v.extractLsb' 0 4).toNat = 0 ∨ 8 < (v.extractLsb' 0 4).toNat →
      ∃ t, step (writingCmd v s) = .next t ∧ FailedWith .illegalCmd latched t) ∧
    (v.extractLsb' 4 28 = 0 → 1 ≤ (v.extractLsb' 0 4).toNat → (v.extractLsb' 0 4).toNat ≤ 8 →
      ∃ i, encode i = v ∧ step (writingCmd v s) = exec i latched)

/-- A step runs the decoded command: LASTOP takes bits 3:0 of the word, the transaction is taken off the host's list, and
the rest is `exec` (rules R28, R59, R82). The same for the word the host's check places: that clause is the model's choice,
how a program comes to run (log entry 6) and, for a number of bits other than 32, which bits make up the word (log
entry 18). -/
def Obligations.StepRunsTheDecodedCommand : Prop :=
  (∀ (s : State) (v : Word) (i : Instr) (rest : List HostEvent),
    s.host.pending = commandEvent v :: rest → decode v = .ok i →
    step s = exec i { s with
      arch := { s.arch with lastop := BitVec.ofNat 4 (v.toNat % 16) },
      host := { s.host with pending := rest } }) ∧
  (∀ (s : State) (nbits w : Nat) (i : Instr), decodeTableWord nbits w = some i →
    step (s.withFetchWord nbits w) =
      exec i { s with arch := { s.arch with lastop := BitVec.ofNat 4 (w % 2 ^ nbits % 16) } })

/-! ### The host's accesses -/

/-- Rule R50, with the map of rule R70: what a read of each offset returns. A read changes nothing but the host's list of
returned words (log entry 2). -/
def Obligations.ReadsReturnTheMapAndChangeNothing : Prop :=
  ∀ (s : State) (offset : Nat) (w : Word),
    (offset, w) ∈ [(0x00, 0#32), (0x04, statusWord s.arch), (0x08, s.arch.opa), (0x0C, s.arch.opb),
      (0x10, s.arch.opc), (0x14, s.arch.opd), (0x18, s.arch.g), (0x1C, s.arch.r),
      (0x20, BitVec.ofNat 32 (s.arch.x.toNat % 2 ^ 32)), (0x24, BitVec.ofNat 32 (s.arch.x.toNat / 2 ^ 32)),
      (0x28, BitVec.ofNat 32 (s.arch.y.toNat % 2 ^ 32)), (0x2C, BitVec.ofNat 32 (s.arch.y.toNat / 2 ^ 32)),
      (0x30, s.arch.kn), (0x34, s.arch.ke), (0x38, s.arch.kd), (0x3C, 0#32)] →
    step (reading offset s) = .next { s with host := { s.host with returned := s.host.returned ++ [w] } }

/-- Rule R73: the STATUS word as a formula, with CAUSE as the code that the table of rule R181 gives each cause; codes 7 to
15 are never produced. -/
def Obligations.StatusWordIsItsFormula : Prop :=
  (∀ a : Arch, (statusWord a).toNat =
    a.done.toNat + 2 * a.err.toNat + 4 * a.kvalid.toNat + 16 * a.cause.code.toNat + 256 * a.lastop.toNat) ∧
  Cause.none.code.toNat = 0 ∧ Cause.illegalCmd.code.toNat = 1 ∧ Cause.divByZero.code.toNat = 2 ∧
  Cause.notInvertible.code.toNat = 3 ∧ Cause.operandRange.code.toNat = 4 ∧ Cause.overflow.code.toNat = 5 ∧
  Cause.noKey.code.toNat = 6 ∧ ∀ c : Cause, c.code.toNat ≤ 6

/-- Rule R51: a write of an operand register stores the word and changes nothing else, a write of CMD runs the word, and
every other write is ignored. -/
def Obligations.WritesReachOperandsAndCmdOnly : Prop :=
  ∀ (s : State) (v : Word),
    step (writing 0x08 v s) = .next { s with arch := { s.arch with opa := v } } ∧
    step (writing 0x0C v s) = .next { s with arch := { s.arch with opb := v } } ∧
    step (writing 0x10 v s) = .next { s with arch := { s.arch with opc := v } } ∧
    step (writing 0x14 v s) = .next { s with arch := { s.arch with opd := v } } ∧
    step (writing 0x00 v s) = cmdWrite v s ∧
    (∀ offset, offset % 4 = 0 → offset ≤ 0x3C → offset ∉ [0x00, 0x08, 0x0C, 0x10, 0x14] →
      step (writing offset v s) = .next s)

/-- Rule R81: writes to STATUS, the results, the key slot and the reserved word are ignored and record no error; reads of
CMD and of the reserved word return 0. -/
def Obligations.ReadOnlyRegistersIgnoreWritesAndPortsReadZero : Prop :=
  (∀ (s : State) (v : Word) (offset : Nat),
    offset ∈ [0x04, 0x18, 0x1C, 0x20, 0x24, 0x28, 0x2C, 0x30, 0x34, 0x38, 0x3C] →
    step (writing offset v s) = .next s) ∧
  (∀ (s : State) (offset : Nat), offset = 0x00 ∨ offset = 0x3C →
    step (reading offset s) =
      .next { s with host := { s.host with returned := s.host.returned ++ [0x00000000] } })

/-- Rules R53 and R54: an access is refused, by a name that says why, exactly when it is not 32 bits wide, not aligned or
beyond offset 0x3C; and such an access is the only thing that stops the machine (rule R180, log entry 8). Which name an
access gets that is wrong in several ways is the model's choice (log entry 9): rules R53 and R54 give no order. -/
def Obligations.OnlyMalformedAccessesStopTheMachine : Prop :=
  ∀ s : State,
    (∀ (kind : AccessKind) (offset bytes : Nat) (rest : List HostEvent),
      s.host.pending = .access { kind := kind, offset := offset, bytes := bytes } :: rest →
      ((∃ why, step s = .refused why) ↔ ¬(bytes = 4 ∧ offset % 4 = 0 ∧ offset ≤ 0x3C)) ∧
      (bytes ≠ 4 → step s = .refused .accessWidth) ∧
      (bytes = 4 → offset % 4 ≠ 0 → step s = .refused .misalignedAccess) ∧
      (bytes = 4 → offset % 4 = 0 → 0x3C < offset → step s = .refused .outsideBlock)) ∧
    ((∃ t, step s = .next t) ∨
      ∃ (a : HostAccess) (rest : List HostEvent), s.host.pending = .access a :: rest ∧ a.wf = false)

/-- Rule R59: a step takes exactly the oldest event, and only a read returns a word to the host. With nothing pending the
step changes nothing (rule R25; the stutter is log entry 5). -/
def Obligations.StepsFollowTheOrderOfArrival : Prop :=
  (∀ s : State, s.host.pending = [] → step s = .next s) ∧
  (∀ s t : State, step s = .next t →
    t.host.pending = s.host.pending.tail ∧
    (t.host.returned = s.host.returned ∨
      ∃ (offset : Nat) (w : Word), HeadIs (wordAccess .read offset) s ∧ t.host.returned = s.host.returned ++ [w]))

/-- Rule R77: the integer the host assembles from the words it reads at 0x24 and 0x20, and at 0x2C and 0x28, is the value
of the register. -/
def Obligations.HostAssemblesTheSignedPair : Prop :=
  ∀ (s : State) (n : Nat), s.host.returned.length = n →
    (∃ t u, step (reading 0x20 s) = .next t ∧ step (reading 0x24 t) = .next u ∧
      ∃ lo hi, u.host.returned[n]? = some lo ∧ u.host.returned[n + 1]? = some hi ∧
        assemble hi lo = s.arch.x.toInt) ∧
    (∃ t u, step (reading 0x28 s) = .next t ∧ step (reading 0x2C t) = .next u ∧
      ∃ lo hi, u.host.returned[n]? = some lo ∧ u.host.returned[n + 1]? = some hi ∧
        assemble hi lo = s.arch.y.toInt)

/-- Rule R80: the order of the operand writes among themselves does not matter. -/
def Obligations.OperandWritesCommute : Prop :=
  ∀ (s : State) (v w : Word) (o₁ o₂ : Nat), o₁ ∈ [0x08, 0x0C, 0x10, 0x14] → o₂ ∈ [0x08, 0x0C, 0x10, 0x14] → o₁ ≠ o₂ →
    ∃ t₁ t₂ u, step (writing o₁ v s) = .next t₁ ∧ step (writing o₂ w t₁) = .next u ∧
      step (writing o₂ w s) = .next t₂ ∧ step (writing o₁ v t₂) = .next u

/-- Rule R56: the block is the 64 bytes from BASE, BASE is a multiple of 4, and an address of the block is the access at
its offset. -/
def Obligations.BlockIsSixtyFourBytesFromBase : Prop :=
  Config.base % 4 = 0 ∧
  ∀ (kind : AccessKind) (address bytes : Nat),
    (Config.base ≤ address ∧ address ≤ Config.base + 0x3F →
      ∃ a, accessAtAddress kind address bytes = some a ∧ busAddress a.offset = address ∧ a.kind = kind ∧
        a.bytes = bytes) ∧
    (¬(Config.base ≤ address ∧ address ≤ Config.base + 0x3F) → accessAtAddress kind address bytes = none)

/-- Rule R79: a bare mnemonic is exactly `wr CMD, <its command word>`. -/
def Obligations.BareMnemonicIsTheWriteOfItsWord : Prop :=
  ∀ i : Instr, lineEvent (.command i) = lineEvent (.wr .cmd (encode i).toNat) ∧
    lineEvent (.command i) = .access { kind := .write (encode i), offset := 0x00, bytes := 4 }

/-! ### GCD, XGCD, MODINV -/

/-- Rule R108: GCD, its result, flags and frame, and its one error. -/
def Obligations.GcdWritesTheGreatestCommonDivisor : Prop :=
  ∀ s : State,
    (s.arch.opb ≠ 0 → ∃ t, exec .gcd s = .next t ∧
      t.arch = { s.arch with g := t.arch.g, done := true, err := false, cause := .none } ∧
      t.arch.g.toNat = Nat.gcd s.arch.opa.toNat s.arch.opb.toNat ∧
      t.host = s.host ∧ CmdWriteGives 0x00000001 1 s t) ∧
    (s.arch.opb = 0 → ∃ t, exec .gcd s = .next t ∧ FailedWith .divByZero s t ∧ CmdWriteGives 0x00000001 1 s t)

/-- Rule R109: properties of GCD. -/
def Obligations.GcdResultDividesBothAndIsSymmetricOffZero : Prop :=
  (∀ s t : State, s.arch.opb ≠ 0 → exec .gcd s = .next t →
    t.arch.g.toNat = Nat.gcd s.arch.opa.toNat s.arch.opb.toNat ∧
    1 ≤ t.arch.g.toNat ∧ t.arch.g.toNat ≤ s.arch.opb.toNat ∧
    t.arch.g.toNat ∣ s.arch.opa.toNat ∧ t.arch.g.toNat ∣ s.arch.opb.toNat) ∧
  (∀ s s' t t' : State, s.arch.opa ≠ 0 → s.arch.opb ≠ 0 → s'.arch.opa = s.arch.opb → s'.arch.opb = s.arch.opa →
    exec .gcd s = .next t → exec .gcd s' = .next t' → t'.arch.g = t.arch.g) ∧
  (∀ s t : State, s.arch.opa = 5 → s.arch.opb = 0 → exec .gcd s = .next t → t.arch.err = true) ∧
  (∀ s t : State, s.arch.opa = 0 → s.arch.opb = 5 → exec .gcd s = .next t → t.arch.done = true ∧ t.arch.g = 5)

/-- Rule R110: XGCD, its three results, flags and frame, and its one error. The pair is the one of `xgcd_core`, exactly,
whatever the working registers held before. -/
def Obligations.XgcdWritesTheGcdWithItsBezoutPair : Prop :=
  ∀ s : State,
    (s.arch.opb ≠ 0 → ∃ t, exec .xgcd s = .next t ∧
      t.arch = { s.arch with
        g := t.arch.g, x := t.arch.x, y := t.arch.y, done := true, err := false, cause := .none } ∧
      t.arch.g.toNat = Nat.gcd s.arch.opa.toNat s.arch.opb.toNat ∧
      (∀ w, t.arch.g.toNat = (xgcdCore s.arch.opa.toNat s.arch.opb.toNat w).r1 ∧
        t.arch.x.toInt = (xgcdCore s.arch.opa.toNat s.arch.opb.toNat w).s1 ∧
        t.arch.y.toInt = (xgcdCore s.arch.opa.toNat s.arch.opb.toNat w).t1) ∧
      (s.arch.opa.toNat : Int) * t.arch.x.toInt + (s.arch.opb.toNat : Int) * t.arch.y.toInt = t.arch.g.toNat ∧
      t.host = s.host ∧ CmdWriteGives 0x00000002 2 s t) ∧
    (s.arch.opb = 0 → ∃ t, exec .xgcd s = .next t ∧ FailedWith .divByZero s t ∧ CmdWriteGives 0x00000002 2 s t)

/-- Rule R105 with rule R112 (conflict C1): which pair XGCD delivers, said without the loop. When the second operand
divides the first the pair is the seed row of b, (0, 1); otherwise it comes from the pair of (b, a mod b) by one step of
the recurrence. -/
def Obligations.XgcdPairObeysTheRecurrence : Prop :=
  ∀ s t : State, s.arch.opb ≠ 0 → exec .xgcd s = .next t →
    (s.arch.opa.toNat % s.arch.opb.toNat = 0 → t.arch.x.toInt = 0 ∧ t.arch.y.toInt = 1) ∧
    (s.arch.opa.toNat % s.arch.opb.toNat ≠ 0 →
      ∀ s' t' : State, s'.arch.opa = s.arch.opb → s'.arch.opb.toNat = s.arch.opa.toNat % s.arch.opb.toNat →
        exec .xgcd s' = .next t' →
        t.arch.x.toInt = t'.arch.y.toInt ∧
        t.arch.y.toInt = t'.arch.x.toInt - (s.arch.opa.toNat / s.arch.opb.toNat : Nat) * t'.arch.y.toInt)

/-- Rule R111: properties (1), (2), (3) and (5) of XGCD; (4), that the pair is the one of rule R105 and no other, is said
by naming `xgcdCore`. -/
def Obligations.XgcdIsBezoutAgreesWithGcdAndSwaps : Prop :=
  (∀ s t u : State, s.arch.opb ≠ 0 → exec .xgcd s = .next t → exec .gcd s = .next u →
    (s.arch.opa.toNat : Int) * t.arch.x.toInt + (s.arch.opb.toNat : Int) * t.arch.y.toInt = t.arch.g.toNat ∧
    t.arch.g = u.arch.g ∧
    t.arch.x.toInt = (xgcdCore s.arch.opa.toNat s.arch.opb.toNat s.work.euclid).s1 ∧
    t.arch.y.toInt = (xgcdCore s.arch.opa.toNat s.arch.opb.toNat s.work.euclid).t1) ∧
  (∀ s s' t t' : State, s.arch.opa ≠ 0 → s.arch.opb ≠ 0 →
    s'.arch.opa = s.arch.opb → s'.arch.opb = s.arch.opa → exec .xgcd s = .next t → exec .xgcd s' = .next t' →
    (s.arch.opa ≠ s.arch.opb → t'.arch.g = t.arch.g ∧ t'.arch.x = t.arch.y ∧ t'.arch.y = t.arch.x) ∧
    (s.arch.opa = s.arch.opb →
      t.arch.x.toInt = 0 ∧ t.arch.y.toInt = 1 ∧ t'.arch.x.toInt = 0 ∧ t'.arch.y.toInt = 1))

/-- Rule R106, which the spec marks as general knowledge (passage K1), not as the source's: the bounds on the delivered
pair, and with them rule R77's reading of the high words. -/
def Obligations.DeliveredCoefficientsAreBounded : Prop :=
  ∀ s t : State, s.arch.opb ≠ 0 → exec .xgcd s = .next t →
    PairWithinBounds s.arch.opa.toNat s.arch.opb.toNat t.arch.x.toInt t.arch.y.toInt ∧
    |t.arch.x.toInt| ≤ 2 ^ 31 - 1 ∧ |t.arch.y.toInt| ≤ 2 ^ 31 - 1 ∧
    hiWord t.arch.x = (if t.arch.x.toInt < 0 then 0xFFFFFFFF else 0) ∧
    hiWord t.arch.y = (if t.arch.y.toInt < 0 then 0xFFFFFFFF else 0) ∧
    (loWord t.arch.x).toInt = t.arch.x.toInt ∧ (loWord t.arch.y).toInt = t.arch.y.toInt

/-- Rules R105 and R106 (the bounds marked there as general knowledge, passage K1): after any number of passes both rows
express their remainder as a combination of the operands, and no coefficient exceeds its bound, which for operands below
`2^32` is within `±(2^32 − 1)`. -/
def Obligations.EveryRowIsACombinationWithinItsBound : Prop :=
  ∀ (a b passes : Nat) (w₀ w : EuclidRegs), 0 < b → w = xgcdLoop passes (xgcdSeed a b w₀) →
    (w.r0 : Int) = a * w.s0 + b * w.t0 ∧ (w.r1 : Int) = a * w.s1 + b * w.t1 ∧ 0 < w.r1 ∧
    RowsWithinBounds a b w ∧
    (a < 2 ^ 32 → b < 2 ^ 32 →
      |w.s0| ≤ 2 ^ 32 - 1 ∧ |w.t0| ≤ 2 ^ 32 - 1 ∧ |w.s1| ≤ 2 ^ 32 - 1 ∧ |w.t1| ≤ 2 ^ 32 - 1)

/-- Rule R104: with a divisor below `2^L` both Euclidean loops have exited by pass `2·L`, so that a longer loop ends in the
same working registers; and both loops end with a zero remainder and with the same result in `r1`. -/
def Obligations.EuclideanLoopsExitWithinTwicePerBit : Prop :=
  ∀ (a b L passes : Nat) (w : EuclidRegs), 0 < b → b < 2 ^ L → 2 * L ≤ passes →
    gcdLoop passes { w with r0 := a, r1 := b } = gcdLoop (2 * L) { w with r0 := a, r1 := b } ∧
    xgcdLoop passes (xgcdSeed a b w) = xgcdLoop (2 * L) (xgcdSeed a b w) ∧
    (xgcdLoop passes (xgcdSeed a b w)).r1 = (gcdLoop passes { w with r0 := a, r1 := b }).r1 ∧
    (gcdLoop passes { w with r0 := a, r1 := b }).r2 = 0 ∧ (xgcdLoop passes (xgcdSeed a b w)).r2 = 0

/-- Rule R103: `emod` is the source's formula, whichever of the two common meanings the inner `mod` has. -/
def Obligations.ResidueIsTheSourcesFormula : Prop :=
  ∀ (x : Int) (m : Nat), 1 ≤ m →
    (residue x m : Int) = Int.tmod (Int.tmod x m + m) m ∧
    (residue x m : Int) = Int.fmod (Int.fmod x m + m) m ∧
    residue x m < m ∧ (m : Int) ∣ x - residue x m

/-- Rule R113: MODINV, its result, flags and frame, and its two errors in their order. -/
def Obligations.ModinvWritesTheInverseOrSaysWhyNot : Prop :=
  ∀ (s : State) (num m : Nat), s.arch.opa.toNat = num → s.arch.opb.toNat = m →
    (m = 0 → ∃ t, exec .modinv s = .next t ∧ FailedWith .divByZero s t ∧ CmdWriteGives 0x00000003 3 s t) ∧
    (m ≠ 0 → Nat.gcd num m ≠ 1 →
      ∃ t, exec .modinv s = .next t ∧ FailedWith .notInvertible s t ∧ CmdWriteGives 0x00000003 3 s t) ∧
    (m ≠ 0 → Nat.gcd num m = 1 → ∃ t, exec .modinv s = .next t ∧
      t.arch = { s.arch with r := t.arch.r, done := true, err := false, cause := .none } ∧
      (∀ w, (t.arch.r.toNat : Int) = (xgcdCore num m w).s1 % m) ∧
      t.arch.r.toNat < m ∧ num * t.arch.r.toNat % m = 1 % m ∧
      t.host = s.host ∧ CmdWriteGives 0x00000003 3 s t)

/-- Rule R114: the inverse is the only one there is, and modulo 1 MODINV succeeds for every operand with the result 0. -/
def Obligations.ModinvResultIsTheOnlyInverse : Prop :=
  (∀ s t : State, 2 ≤ s.arch.opb.toNat → exec .modinv s = .next t → t.arch.done = true →
    t.arch.r.toNat < s.arch.opb.toNat ∧ s.arch.opa.toNat * t.arch.r.toNat % s.arch.opb.toNat = 1 ∧
    ∀ r, r < s.arch.opb.toNat → s.arch.opa.toNat * r % s.arch.opb.toNat = 1 → r = t.arch.r.toNat) ∧
  (∀ s : State, s.arch.opb = 1 → ∃ t, exec .modinv s = .next t ∧ t.arch.done = true ∧ t.arch.r = 0)

/-! ### MODEXP -/

/-- Rule R143: MODEXP, its result, flags and frame, and its one error. -/
def Obligations.ModexpWritesThePowersResidue : Prop :=
  ∀ s : State,
    (s.arch.opc ≠ 0 → ∃ t, exec .modexp s = .next t ∧
      t.arch = { s.arch with r := t.arch.r, done := true, err := false, cause := .none } ∧
      t.arch.r.toNat = s.arch.opa.toNat ^ s.arch.opb.toNat % s.arch.opc.toNat ∧
      t.host = s.host ∧ CmdWriteGives 0x00000004 4 s t) ∧
    (s.arch.opc = 0 → ∃ t, exec .modexp s = .next t ∧ FailedWith .divByZero s t ∧ CmdWriteGives 0x00000004 4 s t)

/-- Rule R144: the range of the result and the laws of powers. -/
def Obligations.ModexpObeysTheLawsOfPowers : Prop :=
  (∀ s t : State, s.arch.opc ≠ 0 → exec .modexp s = .next t →
    t.arch.r.toNat < s.arch.opc.toNat ∧
    t.arch.r.toNat = s.arch.opa.toNat ^ s.arch.opb.toNat % s.arch.opc.toNat) ∧
  (∀ s₁ s₂ s₃ t₁ t₂ t₃ : State, s₁.arch.opc ≠ 0 → s₂.arch.opc = s₁.arch.opc → s₃.arch.opc = s₁.arch.opc →
    exec .modexp s₁ = .next t₁ → exec .modexp s₂ = .next t₂ → exec .modexp s₃ = .next t₃ →
    (s₂.arch.opa = s₁.arch.opa → s₃.arch.opa = s₁.arch.opa →
      s₃.arch.opb.toNat = s₁.arch.opb.toNat + s₂.arch.opb.toNat →
      t₃.arch.r.toNat = t₁.arch.r.toNat * t₂.arch.r.toNat % s₁.arch.opc.toNat) ∧
    (s₂.arch.opa = t₁.arch.r → s₃.arch.opa = s₁.arch.opa →
      s₃.arch.opb.toNat = s₁.arch.opb.toNat * s₂.arch.opb.toNat → t₂.arch.r = t₃.arch.r))

/-- Rule R142: the loop runs exactly `bitlen(e)` passes, its exponent register reaching 0 at that pass and not before; and
its invariant, `acc · base^ex ≡ m^e (mod n)` with `acc, base < n`. -/
def Obligations.ExponentLoopTakesOnePassPerBit : Prop :=
  ∀ (m e n passes : Nat) (w : PowerRegs),
    ((powerLoop passes (powerSeed m e n w)).ex = 0 ↔ Nat.size e ≤ passes) ∧
    (0 < n → (powerLoop passes (powerSeed m e n w)).acc < n ∧ (powerLoop passes (powerSeed m e n w)).base < n ∧
      (powerLoop passes (powerSeed m e n w)).acc *
        (powerLoop passes (powerSeed m e n w)).base ^ (powerLoop passes (powerSeed m e n w)).ex ≡ m ^ e [MOD n])

/-! ### KEYGEN, ENC, DEC, KEYCLR -/

/-- Rule R146: KEYGEN, its four errors in their order, and on success the whole key slot with the private exponent, flags
and frame. Nothing is asked of `n` (rule R147). -/
def Obligations.KeygenDerivesThePrivateExponentOrSaysWhyNot : Prop :=
  ∀ (s : State) (e p q phi : Nat), s.arch.opb.toNat = e → s.arch.opc.toNat = p → s.arch.opd.toNat = q →
    phi = (p - 1) * (q - 1) →
    (p = 0 ∨ q = 0 →
      ∃ t, exec .keygen s = .next t ∧ FailedWith .operandRange s t ∧ CmdWriteGives 0x00000005 5 s t) ∧
    (p ≠ 0 → q ≠ 0 → 2 ^ 32 ≤ phi →
      ∃ t, exec .keygen s = .next t ∧ FailedWith .overflow s t ∧ CmdWriteGives 0x00000005 5 s t) ∧
    (p ≠ 0 → q ≠ 0 → phi = 0 →
      ∃ t, exec .keygen s = .next t ∧ FailedWith .divByZero s t ∧ CmdWriteGives 0x00000005 5 s t) ∧
    (p ≠ 0 → q ≠ 0 → 0 < phi → phi < 2 ^ 32 → Nat.gcd e phi ≠ 1 →
      ∃ t, exec .keygen s = .next t ∧ FailedWith .notInvertible s t ∧ CmdWriteGives 0x00000005 5 s t) ∧
    (p ≠ 0 → q ≠ 0 → 0 < phi → phi < 2 ^ 32 → Nat.gcd e phi = 1 →
      ∃ t, exec .keygen s = .next t ∧
        t.arch = { s.arch with
          kn := s.arch.opa, ke := s.arch.opb, kd := t.arch.kd, kvalid := true,
          done := true, err := false, cause := .none } ∧
        (∀ w, (t.arch.kd.toNat : Int) = (xgcdCore e phi w).s1 % phi) ∧
        t.arch.kd.toNat < phi ∧ e * t.arch.kd.toNat % phi = 1 % phi ∧
        t.host = s.host ∧ CmdWriteGives 0x00000005 5 s t)

/-- Rule R149: ENC, its two errors in their order, its result, flags and frame. -/
def Obligations.EncRaisesToThePublicExponent : Prop :=
  ∀ s : State,
    (s.arch.kvalid = false → ∃ t, exec .enc s = .next t ∧ FailedWith .noKey s t ∧ CmdWriteGives 0x00000006 6 s t) ∧
    (s.arch.kvalid = true → s.arch.kn = 0 →
      ∃ t, exec .enc s = .next t ∧ FailedWith .divByZero s t ∧ CmdWriteGives 0x00000006 6 s t) ∧
    (s.arch.kvalid = true → s.arch.kn ≠ 0 → ∃ t, exec .enc s = .next t ∧
      t.arch = { s.arch with r := t.arch.r, done := true, err := false, cause := .none } ∧
      t.arch.r.toNat = s.arch.opa.toNat ^ s.arch.ke.toNat % s.arch.kn.toNat ∧
      t.host = s.host ∧ CmdWriteGives 0x00000006 6 s t)

/-- Rule R150: DEC, its two errors in their order, its result, flags and frame. -/
def Obligations.DecRaisesToThePrivateExponent : Prop :=
  ∀ s : State,
    (s.arch.kvalid = false → ∃ t, exec .dec s = .next t ∧ FailedWith .noKey s t ∧ CmdWriteGives 0x00000007 7 s t) ∧
    (s.arch.kvalid = true → s.arch.kn = 0 →
      ∃ t, exec .dec s = .next t ∧ FailedWith .divByZero s t ∧ CmdWriteGives 0x00000007 7 s t) ∧
    (s.arch.kvalid = true → s.arch.kn ≠ 0 → ∃ t, exec .dec s = .next t ∧
      t.arch = { s.arch with r := t.arch.r, done := true, err := false, cause := .none } ∧
      t.arch.r.toNat = s.arch.opa.toNat ^ s.arch.kd.toNat % s.arch.kn.toNat ∧
      t.host = s.host ∧ CmdWriteGives 0x00000007 7 s t)

/-- Rule R151: KEYCLR empties the key slot in every state, whether or not a key was present. -/
def Obligations.KeyclrAlwaysEmptiesTheKeySlot : Prop :=
  ∀ s : State, ∃ t, exec .keyclr s = .next t ∧
    t.arch = { s.arch with
      kn := 0, ke := 0, kd := 0, kvalid := false, done := true, err := false, cause := .none } ∧
    t.host = s.host ∧ CmdWriteGives 0x00000008 8 s t

/-- Rule R153: a code point that is not below KN is accepted and gives the result of its residue. -/
def Obligations.LargeCodePointsAreReducedWithoutError : Prop :=
  ∀ (s : State) (m : Word), s.arch.kvalid = true → s.arch.kn ≠ 0 →
    m.toNat = s.arch.opa.toNat % s.arch.kn.toNat →
    ∃ t u v w, exec .enc s = .next t ∧ exec .enc (withOpa m s) = .next u ∧ t.arch.done = true ∧
      t.arch.r = u.arch.r ∧
      exec .dec s = .next v ∧ exec .dec (withOpa m s) = .next w ∧ v.arch.done = true ∧ v.arch.r = w.arch.r

/-- Rule R148, with the condition `p ≠ q` that the spec adds from general knowledge (passage K2): after a KEYGEN that
succeeded on two distinct primes and their product, ENC then DEC gives the code point back modulo `n`, and so does DEC then
ENC. -/
def Obligations.RsaRoundTripReturnsTheCodePoint : Prop :=
  ∀ (s k : State) (m : Word) (p q : Nat), p.Prime → q.Prime → p ≠ q →
    s.arch.opa.toNat = p * q → s.arch.opc.toNat = p → s.arch.opd.toNat = q →
    exec .keygen s = .next k → k.arch.done = true →
    (∃ t u, exec .enc (withOpa m k) = .next t ∧ t.arch.done = true ∧
      exec .dec (withOpa t.arch.r t) = .next u ∧ u.arch.done = true ∧
      u.arch.r.toNat = m.toNat % (p * q) ∧ (m.toNat < p * q → u.arch.r = m)) ∧
    (∃ t u, exec .dec (withOpa m k) = .next t ∧ t.arch.done = true ∧
      exec .enc (withOpa t.arch.r t) = .next u ∧ u.arch.done = true ∧
      u.arch.r.toNat = m.toNat % (p * q) ∧ (m.toNat < p * q → u.arch.r = m))

/-- Rule R148's counterexample (passage K2): with `p = q = 3`, `n = 9`, `e = 3` KEYGEN succeeds with KD = 3, and ENC of 3
gives 0, whose DEC is 0. -/
def Obligations.RoundTripFailsForEqualPrimes : Prop :=
  ∀ s : State, s.arch.opa = 9 → s.arch.opb = 3 → s.arch.opc = 3 → s.arch.opd = 3 →
    ∃ k t u, exec .keygen s = .next k ∧ k.arch.done = true ∧ k.arch.kd = 3 ∧
      exec .enc (withOpa 3 k) = .next t ∧ t.arch.r = 0 ∧
      exec .dec (withOpa 0 t) = .next u ∧ u.arch.r = 0

/-! ### Outcomes, frames and whole-machine rules -/

/-- Rules R26 and R180: every command either succeeds or fails with a cause; there is no third outcome. -/
def Obligations.EveryCommandSucceedsOrFailsWithOneCause : Prop :=
  ∀ (i : Instr) (s : State), ∃ t, exec i s = .next t ∧
    ((t.arch.done = true ∧ t.arch.err = false ∧ t.arch.cause = .none) ∨
     (t.arch.done = false ∧ t.arch.err = true ∧ t.arch.cause ≠ .none))

/-- Rule R187: a CMD write that fails, whatever its word, changes DONE, ERR, CAUSE and LASTOP and nothing else. -/
def Obligations.FailedCommandsLeaveNoPartialResult : Prop :=
  ∀ (s t : State) (v : Word), step (writingCmd v s) = .next t → t.arch.err = true →
    t.arch = { s.arch with
      done := t.arch.done, err := t.arch.err, cause := t.arch.cause, lastop := t.arch.lastop } ∧
    t.host = s.host

/-- Rules R116, R154, R181: which causes each command can leave. -/
def Obligations.EachCommandRaisesOnlyItsCauses : Prop :=
  ∀ (i : Instr) (s t : State), exec i s = .next t →
    t.arch.cause ∈ (match i with
      | .gcd => [Cause.none, .divByZero]
      | .xgcd => [.none, .divByZero]
      | .modinv => [.none, .divByZero, .notInvertible]
      | .modexp => [.none, .divByZero]
      | .keygen => [.none, .operandRange, .overflow, .divByZero, .notInvertible]
      | .enc => [.none, .noKey, .divByZero]
      | .dec => [.none, .noKey, .divByZero]
      | .keyclr => [.none])

/-- Rules R21, R22, R23, R24, R29, over all steps: which event can change which register. -/
def Obligations.RegistersChangeOnlyByTheirWriters : Prop :=
  ∀ s t : State, step s = .next t → ¬ HeadIs .reset s →
    (t.arch.opa ≠ s.arch.opa → HeadIs (wordAccess (.write t.arch.opa) 0x08) s) ∧
    (t.arch.opb ≠ s.arch.opb → HeadIs (wordAccess (.write t.arch.opb) 0x0C) s) ∧
    (t.arch.opc ≠ s.arch.opc → HeadIs (wordAccess (.write t.arch.opc) 0x10) s) ∧
    (t.arch.opd ≠ s.arch.opd → HeadIs (wordAccess (.write t.arch.opd) 0x14) s) ∧
    (t.arch.g ≠ s.arch.g → HeadIs (commandEvent 1) s ∨ HeadIs (commandEvent 2) s) ∧
    (t.arch.r ≠ s.arch.r → HeadIs (commandEvent 3) s ∨ HeadIs (commandEvent 4) s ∨
      HeadIs (commandEvent 6) s ∨ HeadIs (commandEvent 7) s) ∧
    (t.arch.x ≠ s.arch.x ∨ t.arch.y ≠ s.arch.y → HeadIs (commandEvent 2) s) ∧
    (t.arch.done ≠ s.arch.done ∨ t.arch.err ≠ s.arch.err ∨ t.arch.cause ≠ s.arch.cause ∨
      t.arch.lastop ≠ s.arch.lastop → ∃ v, HeadIs (commandEvent v) s)

/-- Rule R32: the key slot changes only by a reset, a KEYCLR or a successful KEYGEN, which replaces all of it at once. -/
def Obligations.KeySlotLivesUntilKeygenKeyclrOrReset : Prop :=
  ∀ s t : State, step s = .next t →
    (t.arch.kn ≠ s.arch.kn ∨ t.arch.ke ≠ s.arch.ke ∨ t.arch.kd ≠ s.arch.kd ∨ t.arch.kvalid ≠ s.arch.kvalid →
      HeadIs .reset s ∨ HeadIs (commandEvent 8) s ∨ (HeadIs (commandEvent 5) s ∧ t.arch.done = true)) ∧
    (HeadIs (commandEvent 5) s → t.arch.done = true →
      t.arch.kn = s.arch.opa ∧ t.arch.ke = s.arch.opb ∧ t.arch.kvalid = true ∧
      t.arch.kd.toNat < (s.arch.opc.toNat - 1) * (s.arch.opd.toNat - 1) ∧
      s.arch.opb.toNat * t.arch.kd.toNat % ((s.arch.opc.toNat - 1) * (s.arch.opd.toNat - 1)) =
        1 % ((s.arch.opc.toNat - 1) * (s.arch.opd.toNat - 1))) ∧
    (HeadIs (commandEvent 5) s → t.arch.done = false →
      t.arch.kn = s.arch.kn ∧ t.arch.ke = s.arch.ke ∧ t.arch.kd = s.arch.kd ∧ t.arch.kvalid = s.arch.kvalid)

/-- Rules R24, R37, R76, R152: the outcome of a command is a function of the registers it reads, so nothing else of the
state (another operand, an older result, a flag, the working registers) has an influence on it. KEYCLR reads nothing, so
its outcome is the same in any two states. -/
def Obligations.OutcomesDependOnlyOnTheRegistersRead : Prop :=
  ∀ s s' : State,
    (s.arch.opa = s'.arch.opa → s.arch.opb = s'.arch.opb →
      (∃ t t', exec .gcd s = .next t ∧ exec .gcd s' = .next t' ∧ SameOutcome t t' ∧
        (t.arch.done = true → t.arch.g = t'.arch.g)) ∧
      (∃ t t', exec .xgcd s = .next t ∧ exec .xgcd s' = .next t' ∧ SameOutcome t t' ∧
        (t.arch.done = true → t.arch.g = t'.arch.g ∧ t.arch.x = t'.arch.x ∧ t.arch.y = t'.arch.y)) ∧
      (∃ t t', exec .modinv s = .next t ∧ exec .modinv s' = .next t' ∧ SameOutcome t t' ∧
        (t.arch.done = true → t.arch.r = t'.arch.r))) ∧
    (s.arch.opa = s'.arch.opa → s.arch.opb = s'.arch.opb → s.arch.opc = s'.arch.opc →
      ∃ t t', exec .modexp s = .next t ∧ exec .modexp s' = .next t' ∧ SameOutcome t t' ∧
        (t.arch.done = true → t.arch.r = t'.arch.r)) ∧
    (s.arch.opa = s'.arch.opa → s.arch.opb = s'.arch.opb → s.arch.opc = s'.arch.opc → s.arch.opd = s'.arch.opd →
      ∃ t t', exec .keygen s = .next t ∧ exec .keygen s' = .next t' ∧ SameOutcome t t' ∧
        (t.arch.done = true → t.arch.kn = t'.arch.kn ∧ t.arch.ke = t'.arch.ke ∧ t.arch.kd = t'.arch.kd ∧
          t.arch.kvalid = t'.arch.kvalid)) ∧
    (s.arch.opa = s'.arch.opa → s.arch.kn = s'.arch.kn → s.arch.ke = s'.arch.ke →
      s.arch.kvalid = s'.arch.kvalid →
      ∃ t t', exec .enc s = .next t ∧ exec .enc s' = .next t' ∧ SameOutcome t t' ∧
        (t.arch.done = true → t.arch.r = t'.arch.r)) ∧
    (s.arch.opa = s'.arch.opa → s.arch.kn = s'.arch.kn → s.arch.kd = s'.arch.kd →
      s.arch.kvalid = s'.arch.kvalid →
      ∃ t t', exec .dec s = .next t ∧ exec .dec s' = .next t' ∧ SameOutcome t t' ∧
        (t.arch.done = true → t.arch.r = t'.arch.r)) ∧
    (∃ t t', exec .keyclr s = .next t ∧ exec .keyclr s' = .next t' ∧ SameOutcome t t' ∧
      t.arch.kn = t'.arch.kn ∧ t.arch.ke = t'.arch.ke ∧ t.arch.kd = t'.arch.kd ∧ t.arch.kvalid = t'.arch.kvalid)

/-- Rule R36: the working registers are initialised by each command before it uses them, and the host can neither read nor
write them: whatever they hold, a step has the same effect on the architectural state and on the host, or the same
refusal. -/
def Obligations.WorkingRegistersAreNeverObservable : Prop :=
  ∀ (s : State) (w : WorkRegs),
    (∃ t u, step s = .next t ∧ step { s with work := w } = .next u ∧ u.arch = t.arch ∧ u.host = t.host) ∨
    (∃ why, step s = .refused why ∧ step { s with work := w } = .refused why)

/-! ### Reset and the invariant -/

/-- Rules R38 and R210: every architectural register is zero after reset, whether it is the machine's first state or the
reset input arrives later; the host then reads 0 at every offset. -/
def Obligations.ResetClearsEveryRegister : Prop :=
  (State.reset.arch = {
    opa := 0, opb := 0, opc := 0, opd := 0, g := 0, r := 0, x := 0, y := 0, kn := 0, ke := 0, kd := 0,
    done := false, err := false, kvalid := false, cause := .none, lastop := 0 }) ∧
  (∀ (s : State) (rest : List HostEvent), s.host.pending = .reset :: rest →
    ∃ t, step s = .next t ∧ t.arch = State.reset.arch ∧ t.host.pending = rest ∧
      t.host.returned = s.host.returned) ∧
  (∀ (s : State) (offset : Nat), s.arch = State.reset.arch → offset % 4 = 0 → offset ≤ 0x3C →
    step (reading offset s) = .next { s with host := { s.host with returned := s.host.returned ++ [0] } })

/-- Rule R212 (1) and (2): with no operand written since reset, so that all four are 0, GCD, XGCD, MODINV and MODEXP report
DIV_BY_ZERO and KEYGEN OPERAND_RANGE, and without a key ENC and DEC report NO_KEY, whatever commands, illegal words or
KEYCLRs came before. -/
def Obligations.CommandsAtResetReportTheirErrors : Prop :=
  ∀ s : State, s.arch.opa = 0 → s.arch.opb = 0 → s.arch.opc = 0 → s.arch.opd = 0 → s.arch.kvalid = false →
    ∀ (i : Instr) (c : Cause),
    (i, c) ∈ [(Instr.gcd, Cause.divByZero), (.xgcd, .divByZero), (.modinv, .divByZero), (.modexp, .divByZero),
      (.keygen, .operandRange), (.enc, .noKey), (.dec, .noKey)] →
    ∃ t, exec i s = .next t ∧ FailedWith c s t

/-- The invariant holds right after reset. -/
def Obligations.ResetStateMeetsTheInvariant : Prop := StateInv State.reset

/-- Every step keeps the invariant (Safety.lean): DONE and ERR are never both 1, CAUSE is 0 exactly when ERR is 0 and fits
the command in LASTOP, the key slot reads 0 without a key and else holds a private exponent that KEYGEN derives, X and Y
lie within ±(2^31 − 1), and while no command has run every result is at its reset value. -/
def Obligations.EveryStepKeepsTheInvariant : Prop :=
  ∀ s t : State, StateInv s → step s = .next t → StateInv t
end

