-- ==== Sys2Proof/Laws/Euclid.lean ====
section
/-! SUPPORT. What the Euclidean cores compute: their exit within 64 passes (rule R104), the row invariant (rule R105), the
coefficient bounds (rule R106), the residue (rule R103) and the modular-inverse unit (rules R113, R114). -/

namespace Sys2Proof.Machine

/-! ### One pass -/

@[simp] theorem euclidDivide_r2 (w : EuclidRegs) : (euclidDivide w).r2 = w.r0 % w.r1 := by
  have h := Nat.mod_add_div' w.r0 w.r1
  simp only [euclidDivide]; omega

@[simp] theorem euclidDivide_q (w : EuclidRegs) : (euclidDivide w).q = w.r0 / w.r1 := rfl
@[simp] theorem euclidDivide_r0 (w : EuclidRegs) : (euclidDivide w).r0 = w.r0 := rfl
@[simp] theorem euclidDivide_s0 (w : EuclidRegs) : (euclidDivide w).s0 = w.s0 := rfl
@[simp] theorem euclidDivide_t0 (w : EuclidRegs) : (euclidDivide w).t0 = w.t0 := rfl
@[simp] theorem euclidDivide_r1 (w : EuclidRegs) : (euclidDivide w).r1 = w.r1 := rfl
@[simp] theorem euclidDivide_s1 (w : EuclidRegs) : (euclidDivide w).s1 = w.s1 := rfl
@[simp] theorem euclidDivide_t1 (w : EuclidRegs) : (euclidDivide w).t1 = w.t1 := rfl
@[simp] theorem euclidShift_r0 (w : EuclidRegs) : (euclidShift w).r0 = w.r1 := rfl
@[simp] theorem euclidShift_s0 (w : EuclidRegs) : (euclidShift w).s0 = w.s1 := rfl
@[simp] theorem euclidShift_t0 (w : EuclidRegs) : (euclidShift w).t0 = w.t1 := rfl
@[simp] theorem euclidShift_r1 (w : EuclidRegs) : (euclidShift w).r1 = w.r2 := rfl
@[simp] theorem euclidShift_s1 (w : EuclidRegs) : (euclidShift w).s1 = w.s0 - w.q * w.s1 := rfl
@[simp] theorem euclidShift_t1 (w : EuclidRegs) : (euclidShift w).t1 = w.t0 - w.q * w.t1 := rfl

/-! ### Induction along a loop, packaged once -/

/-- A property of rows that every pass with a nonzero remainder keeps, and that does not look at `q` and `r2`, holds of the
row that the extended loop leaves. -/
theorem xgcdLoop_induction {P : EuclidRegs → Prop}
    (hdiv : ∀ w, P w → P (euclidDivide w))
    (hstep : ∀ w, P w → w.r0 % w.r1 ≠ 0 → P (euclidShift (euclidDivide w))) :
    ∀ fuel w, P w → P (xgcdLoop fuel w) := by
  intro fuel
  induction fuel with
  | zero => intro w hw; exact hw
  | succ fuel ih =>
    intro w hw
    by_cases h : w.r0 % w.r1 = 0
    · simpa [xgcdLoop, h] using hdiv w hw
    · simpa [xgcdLoop, h] using ih _ (hstep w hw h)

/-! ### Termination (rule R104) -/

/-- Two passes at least halve the divisor. -/
theorem mod_mod_lt_half {a b : Nat} (hb : 0 < b) (h : a % b ≠ 0) : 2 * (b % (a % b)) < b := by
  have hlt := Nat.mod_lt a hb
  have hlt' := Nat.mod_lt b (Nat.pos_of_ne_zero h)
  have hd := Nat.div_add_mod b (a % b)
  have hq : 1 ≤ b / (a % b) := (Nat.one_le_div_iff (Nat.pos_of_ne_zero h)).2 hlt.le
  have : (a % b) * 1 ≤ (a % b) * (b / (a % b)) := Nat.mul_le_mul_left _ hq
  omega

/-- With a divisor below `2^L`, the loop of `gcd_core` exits within `2·L` passes: a longer loop ends in the same working
registers, with a zero remainder. -/
theorem gcdLoop_settles : ∀ (L k : Nat) (w : EuclidRegs), 0 < w.r1 → w.r1 < 2 ^ L →
    gcdLoop (2 * L + k) w = gcdLoop (2 * L) w ∧ (gcdLoop (2 * L + k) w).r2 = 0 := by
  intro L
  induction L with
  | zero => intro k w h0 h1; simp at h1; omega
  | succ L ih =>
    intro k w h0 h1
    have e1 : 2 * (L + 1) + k = 2 * L + k + 1 + 1 := by omega
    have e2 : 2 * (L + 1) = 2 * L + 1 + 1 := by omega
    rw [e1, e2]
    by_cases h : w.r0 % w.r1 = 0
    · simp [gcdLoop, h]
    by_cases h' : w.r1 % (w.r0 % w.r1) = 0
    · simp [gcdLoop, h, h']
    · have hhalf := mod_mod_lt_half h0 h
      simp only [gcdLoop, h, h', if_false]
      exact ih k _ (Nat.pos_of_ne_zero h') (by simp only [pow_succ] at h1; simp only; omega)

/-- With a divisor below `2^L`, the loop of `gcd_core` has found a divisor of its last dividend within `2·L` passes. -/
theorem gcdLoop_exits : ∀ (L fuel : Nat) (w : EuclidRegs), 0 < w.r1 → w.r1 < 2 ^ L → 2 * L ≤ fuel →
    0 < (gcdLoop fuel w).r1 ∧ (gcdLoop fuel w).r0 % (gcdLoop fuel w).r1 = 0 := by
  intro L
  induction L with
  | zero => intro fuel w h0 h1; simp at h1; omega
  | succ L ih =>
    intro fuel w h0 h1 hf
    obtain ⟨fuel, rfl⟩ : ∃ k, fuel = k + 2 := ⟨fuel - 2, by omega⟩
    by_cases h : w.r0 % w.r1 = 0
    · simp [gcdLoop, h, h0]
    by_cases h' : w.r1 % (w.r0 % w.r1) = 0
    · simp only [gcdLoop, h, h', if_true, if_false]; exact ⟨Nat.pos_of_ne_zero h, trivial⟩
    · have hhalf := mod_mod_lt_half h0 h
      simp only [gcdLoop, h, h', if_false]
      exact ih fuel _ (Nat.pos_of_ne_zero h') (by simp only [pow_succ] at h1; simp only; omega) (by omega)

/-- The extended loop goes through the remainders of the plain one (rule R105). -/
theorem xgcdLoop_remainders : ∀ (fuel : Nat) (w v : EuclidRegs), w.r0 = v.r0 → w.r1 = v.r1 →
    (xgcdLoop fuel w).r0 = (gcdLoop fuel v).r0 ∧ (xgcdLoop fuel w).r1 = (gcdLoop fuel v).r1 := by
  intro fuel
  induction fuel with
  | zero => intro w v h0 h1; exact ⟨h0, h1⟩
  | succ fuel ih =>
    intro w v h0 h1
    by_cases h : v.r0 % v.r1 = 0
    · simp [xgcdLoop, gcdLoop, h0, h1, h]
    · simp only [xgcdLoop, gcdLoop, euclidDivide_r2, h0, h1, h, if_false]
      exact ih _ _ (by simp [h1]) (by simp [h0, h1])

/-! ### Rows (rules R105, R106) -/

/-- What the rows of `xgcd_core(a, b)` satisfy before the loop and after every pass. -/
structure RowInv (a b : Nat) (w : EuclidRegs) : Prop where
  pos : 0 < w.r1
  row0 : (w.r0 : Int) = a * w.s0 + b * w.t0
  row1 : (w.r1 : Int) = a * w.s1 + b * w.t1
  altS : w.s0 * w.s1 ≤ 0
  altT : w.t0 * w.t1 ≤ 0
  sumS : (w.r0 : Int) * |w.s1| + w.r1 * |w.s0| = b
  sumT : (w.r0 : Int) * |w.t1| + w.r1 * |w.t0| = a
  gcd : Nat.gcd w.r0 w.r1 = Nat.gcd a b
  seedOrFalling : (w.r0 = a ∧ w.r1 = b ∧ w.s0 = 1 ∧ w.t0 = 0 ∧ w.s1 = 0 ∧ w.t1 = 1) ∨ w.r1 < w.r0

theorem xgcdSeed_rowInv (a b : Nat) (w : EuclidRegs) (hb : 0 < b) : RowInv a b (xgcdSeed a b w) := by
  constructor <;> simp [xgcdSeed, hb]

theorem RowInv.divide {a b : Nat} {w : EuclidRegs} (h : RowInv a b w) : RowInv a b (euclidDivide w) :=
  ⟨h.pos, h.row0, h.row1, h.altS, h.altT, h.sumS, h.sumT, h.gcd, h.seedOrFalling⟩

/-- Coefficients of alternating sign add up in absolute value. -/
theorem abs_sub_mul_of_alternating {u v : Int} {q : Nat} (h : u * v ≤ 0) : |u - q * v| = |u| + q * |v| := by
  rcases le_total 0 u with hu | hu <;> rcases le_total 0 v with hv | hv
  · rcases eq_or_lt_of_le hu with rfl | hu'
    · simp [abs_mul]
    · have : v = 0 := by nlinarith
      simp [this]
  · rw [abs_of_nonneg hu, abs_of_nonpos hv, abs_of_nonneg (by nlinarith [Int.natCast_nonneg q])]; ring
  · rw [abs_of_nonpos hu, abs_of_nonneg hv, abs_of_nonpos (by nlinarith [Int.natCast_nonneg q])]; ring
  · rcases eq_or_lt_of_le hu with rfl | hu'
    · simp [abs_mul]
    · have : v = 0 := by nlinarith
      simp [this]

theorem alternating_next {u v : Int} {q : Nat} (h : u * v ≤ 0) : v * (u - q * v) ≤ 0 := by
  nlinarith [mul_nonneg (Int.natCast_nonneg q) (mul_self_nonneg v)]

theorem RowInv.shift {a b : Nat} {w : EuclidRegs} (h : RowInv a b w) (hr : w.r0 % w.r1 ≠ 0) :
    RowInv a b (euclidShift (euclidDivide w)) := by
  have hdiv : (w.r0 : Int) = w.r1 * (w.r0 / w.r1 : Nat) + (w.r0 % w.r1 : Nat) := by
    exact_mod_cast (Nat.div_add_mod w.r0 w.r1).symm
  have hS := h.sumS
  have hT := h.sumT
  have h0 := h.row0
  have h1 := h.row1
  constructor
  · simpa using Nat.pos_of_ne_zero hr
  · simpa using h1
  · simp only [euclidShift_r1, euclidDivide_r2, euclidShift_s1, euclidShift_t1, euclidDivide_q, euclidDivide_s0,
      euclidDivide_s1, euclidDivide_t0, euclidDivide_t1]
    linear_combination h0 - ((w.r0 / w.r1 : Nat) : Int) * h1 - hdiv
  · exact alternating_next h.altS
  · exact alternating_next h.altT
  · simp only [euclidShift_r0, euclidShift_r1, euclidShift_s0, euclidShift_s1, euclidDivide_r1, euclidDivide_r2,
      euclidDivide_q, euclidDivide_s0, euclidDivide_s1, abs_sub_mul_of_alternating h.altS]
    linear_combination hS - |w.s1| * hdiv
  · simp only [euclidShift_r0, euclidShift_r1, euclidShift_t0, euclidShift_t1, euclidDivide_r1, euclidDivide_r2,
      euclidDivide_q, euclidDivide_t0, euclidDivide_t1, abs_sub_mul_of_alternating h.altT]
    linear_combination hT - |w.t1| * hdiv
  · rw [← h.gcd]
    simp only [euclidShift_r0, euclidShift_r1, euclidDivide_r1, euclidDivide_r2]
    rw [Nat.gcd_comm w.r1, ← Nat.gcd_rec, Nat.gcd_comm]
  · right; simpa using Nat.mod_lt _ h.pos

theorem xgcdLoop_rowInv {a b : Nat} (fuel : Nat) {w : EuclidRegs} (h : RowInv a b w) :
    RowInv a b (xgcdLoop fuel w) :=
  xgcdLoop_induction (fun _ hw => hw.divide) (fun _ hw hr => hw.shift hr) fuel w h

/-- The row that `xgcd_core` returns is the row of the last nonzero remainder: its remainder divides the one before. -/
theorem xgcdCore_exits {a b : Nat} (w : EuclidRegs) (hb : 0 < b) (hlt : b < 2 ^ 32) :
    (xgcdCore a b w).r0 % (xgcdCore a b w).r1 = 0 := by
  have h := xgcdLoop_remainders euclidPasses (xgcdSeed a b w) (xgcdSeed a b w) rfl rfl
  have h' := (gcdLoop_exits 32 euclidPasses (xgcdSeed a b w) hb hlt (by decide)).2
  rw [xgcdCore, h.1, h.2]; exact h'

/-- A coefficient whose product with a remainder of at least `m` does not exceed `n`. -/
theorem coefficient_bound {r n m : Nat} {z : Int} (hm : 0 < m) (hr : m ≤ r) (h : (r : Int) * |z| ≤ n) :
    |z| ≤ ((max 1 (n / m) : Nat) : Int) := by
  refine le_trans ?_ (Int.ofNat_le.2 (le_max_right 1 _))
  rw [Int.natCast_div, Int.le_ediv_iff_mul_le (by omega)]
  have hr' : (m : Int) ≤ r := by exact_mod_cast hr
  nlinarith [abs_nonneg z]

/-- A coefficient of a seed row is within every bound of rule R106. -/
theorem seed_bound {z : Int} (n : Nat) (h : |z| ≤ 1) : |z| ≤ ((max 1 n : Nat) : Int) :=
  h.trans (by exact_mod_cast le_max_left 1 n)

/-- A bound of rule R106 on operands below `2^32`: the coefficient lies in `[−(2^32 − 1), 2^32 − 1]`. -/
theorem row_bound_range {z : Int} {n m : Nat} (hn : n < 2 ^ 32) (h : |z| ≤ ((max 1 (n / m) : Nat) : Int)) :
    |z| ≤ 2 ^ 32 - 1 := by
  have := Nat.div_le_self n m
  omega

/-- A bound of rule R106 on the returned pair, with operands below `2^32`: the coefficient lies in
`[−(2^31 − 1), 2^31 − 1]`. -/
theorem pair_bound_range {z : Int} {n g : Nat} (hg : 0 < g) (hn : n < 2 ^ 32)
    (h : |z| ≤ ((max 1 (n / (2 * g)) : Nat) : Int)) : |z| ≤ 2 ^ 31 - 1 := by
  have : n / (2 * g) ≤ n / 2 := Nat.div_le_div_left (by omega) (by decide)
  omega

/-- The rows' invariant gives the bounds of rule R106. -/
theorem RowInv.withinBounds {a b : Nat} {w : EuclidRegs} (inv : RowInv a b w) : RowsWithinBounds a b w := by
  have hg : 0 < Nat.gcd a b := inv.gcd ▸ Nat.gcd_pos_of_pos_right _ inv.pos
  have h1 : Nat.gcd a b ≤ w.r1 := Nat.le_of_dvd inv.pos (inv.gcd ▸ Nat.gcd_dvd_right _ _)
  have hS := inv.sumS
  have hT := inv.sumT
  have p1 := mul_nonneg (Int.natCast_nonneg w.r1) (abs_nonneg w.s0)
  have p2 := mul_nonneg (Int.natCast_nonneg w.r1) (abs_nonneg w.t0)
  have p3 := mul_nonneg (Int.natCast_nonneg w.r0) (abs_nonneg w.s1)
  have p4 := mul_nonneg (Int.natCast_nonneg w.r0) (abs_nonneg w.t1)
  have b0 := coefficient_bound hg h1 (by linarith : (w.r1 : Int) * |w.s0| ≤ b)
  have b1 := coefficient_bound hg h1 (by linarith : (w.r1 : Int) * |w.t0| ≤ a)
  rcases inv.seedOrFalling with ⟨-, -, -, -, hs, ht⟩ | hf
  · exact ⟨b0, b1, seed_bound _ (by simp [hs]), seed_bound _ (by simp [ht])⟩
  · exact ⟨b0, b1, coefficient_bound (r := w.r0) hg (by omega) (by linarith),
      coefficient_bound (r := w.r0) hg (by omega) (by linarith)⟩

/-- Rule R106, for every pair held at any time: after any number of passes, none included, the rows are within their
bounds. -/
theorem xgcdLoop_rowsWithinBounds {a b : Nat} (passes : Nat) (w : EuclidRegs) (hb : 0 < b) :
    RowsWithinBounds a b (xgcdLoop passes (xgcdSeed a b w)) :=
  (xgcdLoop_rowInv passes (xgcdSeed_rowInv a b w hb)).withinBounds

/-- `xgcd_core` in one lemma: the gcd, the Bezout identity and the strong bounds of rule R106. -/
theorem xgcdCore_spec {a b : Nat} (w : EuclidRegs) (hb : 0 < b) (hlt : b < 2 ^ 32) :
    (xgcdCore a b w).r1 = Nat.gcd a b ∧
    (a : Int) * (xgcdCore a b w).s1 + b * (xgcdCore a b w).t1 = Nat.gcd a b ∧
    PairWithinBounds a b (xgcdCore a b w).s1 (xgcdCore a b w).t1 := by
  have inv : RowInv a b (xgcdCore a b w) := xgcdLoop_rowInv _ (xgcdSeed_rowInv a b w hb)
  have hdvd : (xgcdCore a b w).r1 ∣ (xgcdCore a b w).r0 := Nat.dvd_of_mod_eq_zero (xgcdCore_exits w hb hlt)
  have hg : (xgcdCore a b w).r1 = Nat.gcd a b := by rw [← inv.gcd, Nat.gcd_eq_right hdvd]
  refine ⟨hg, by rw [← inv.row1, hg], ?_⟩
  rcases inv.seedOrFalling with ⟨-, -, -, -, hs, ht⟩ | hfall
  · exact ⟨seed_bound _ (by simp [hs]), seed_bound _ (by simp [ht])⟩
  · obtain ⟨k, hk⟩ := hdvd
    have hk2 : 2 ≤ k := by
      by_contra hcon
      have : k = 0 ∨ k = 1 := by omega
      rcases this with rfl | rfl <;> simp at hk <;> omega
    have hr0 : 2 * Nat.gcd a b ≤ (xgcdCore a b w).r0 := by
      rw [hk, ← hg, Nat.mul_comm 2]; exact Nat.mul_le_mul_left _ hk2
    have hpos : 0 < Nat.gcd a b := hg ▸ inv.pos
    have hS := inv.sumS
    have hT := inv.sumT
    have p1 := mul_nonneg (Int.natCast_nonneg (xgcdCore a b w).r1) (abs_nonneg (xgcdCore a b w).s0)
    have p2 := mul_nonneg (Int.natCast_nonneg (xgcdCore a b w).r1) (abs_nonneg (xgcdCore a b w).t0)
    exact ⟨coefficient_bound (by omega) hr0 (by linarith), coefficient_bound (by omega) hr0 (by linarith)⟩

/-- `gcd_core` returns the greatest common divisor. -/
theorem gcdCore_r1 {a b : Nat} (w : EuclidRegs) (hb : 0 < b) (hlt : b < 2 ^ 32) :
    (gcdCore a b w).r1 = Nat.gcd a b := by
  have h := xgcdLoop_remainders euclidPasses (xgcdSeed a b w) { w with r0 := a, r1 := b } rfl rfl
  rw [gcdCore, ← h.2]
  exact (xgcdCore_spec w hb hlt).1

/-! ### The working registers' earlier contents do not matter (rule R36) -/

theorem xgcdLoop_rows_congr : ∀ (fuel : Nat) (w v : EuclidRegs),
    w.r0 = v.r0 → w.s0 = v.s0 → w.t0 = v.t0 → w.r1 = v.r1 → w.s1 = v.s1 → w.t1 = v.t1 →
    (xgcdLoop fuel w).r1 = (xgcdLoop fuel v).r1 ∧ (xgcdLoop fuel w).s1 = (xgcdLoop fuel v).s1 ∧
      (xgcdLoop fuel w).t1 = (xgcdLoop fuel v).t1 := by
  intro fuel
  induction fuel with
  | zero => intro w v _ _ _ h1 h2 h3; exact ⟨h1, h2, h3⟩
  | succ fuel ih =>
    intro w v h0 h1 h2 h3 h4 h5
    by_cases h : v.r0 % v.r1 = 0
    · simp [xgcdLoop, h0, h3, h, h4, h5]
    · simp only [xgcdLoop, euclidDivide_r2, h0, h3, h, if_false]
      exact ih _ _ (by simp [h3]) (by simp [h4]) (by simp [h5]) (by simp [h0, h3]) (by simp [h0, h1, h3, h4])
        (by simp [h0, h2, h3, h5])

/-- The result of `xgcd_core` is a function of its two operands. -/
theorem xgcdCore_congr (a b : Nat) (w v : EuclidRegs) :
    (xgcdCore a b w).r1 = (xgcdCore a b v).r1 ∧ (xgcdCore a b w).s1 = (xgcdCore a b v).s1 ∧
      (xgcdCore a b w).t1 = (xgcdCore a b v).t1 :=
  xgcdLoop_rows_congr _ _ _ rfl rfl rfl rfl rfl rfl

theorem gcdLoop_congr : ∀ (fuel : Nat) (w v : EuclidRegs), w.r0 = v.r0 → w.r1 = v.r1 →
    (gcdLoop fuel w).r1 = (gcdLoop fuel v).r1 := by
  intro fuel w v h0 h1
  have := xgcdLoop_remainders fuel w v h0 h1
  rw [← this.2, ← (xgcdLoop_remainders fuel w w rfl rfl).2]

/-- The result of `gcd_core` is a function of its two operands. -/
theorem gcdCore_congr (a b : Nat) (w v : EuclidRegs) : (gcdCore a b w).r1 = (gcdCore a b v).r1 :=
  gcdLoop_congr _ _ _ rfl rfl

/-! ### The residue and the inverse unit (rules R103, R113, R114) -/

theorem residue_lt (z : Int) {m : Nat} (hm : 0 < m) : residue z m < m := by
  have h1 := Int.emod_nonneg z (by omega : (m : Int) ≠ 0)
  have h2 := Int.emod_lt_of_pos z (by omega : (0 : Int) < m)
  simp only [residue]; omega

theorem residue_cast (z : Int) {m : Nat} (hm : 0 < m) : (residue z m : Int) = z % m := by
  have h1 := Int.emod_nonneg z (by omega : (m : Int) ≠ 0)
  simp only [residue]; omega

/-- The inverse unit is a function of its two operands. -/
theorem inverseUnit_congr (num m : Nat) (w v : EuclidRegs) : inverseUnit num m w = inverseUnit num m v := by
  have h := xgcdCore_congr num m w v
  simp only [inverseUnit, h.1, h.2.1]

/-- The inverse unit in one lemma: it fails on a zero modulus, then on operands that are not coprime, and else answers the
residue whose product with `num` is 1 modulo `m`. -/
theorem inverseUnit_cases (num m : Nat) (w : EuclidRegs) (hm : m < 2 ^ 32) :
    (m = 0 ∧ inverseUnit num m w = .error .divByZero) ∨
    (0 < m ∧ Nat.gcd num m ≠ 1 ∧ inverseUnit num m w = .error .notInvertible) ∨
    (0 < m ∧ Nat.gcd num m = 1 ∧
      ∃ r, inverseUnit num m w = .ok r ∧ r < m ∧ num * r % m = 1 % m) := by
  rcases Nat.eq_zero_or_pos m with rfl | hpos
  · left; simp [inverseUnit]
  right
  obtain ⟨hg, hbez, -⟩ := xgcdCore_spec (a := num) w hpos hm
  by_cases hc : Nat.gcd num m = 1
  · right
    refine ⟨hpos, hc, residue (xgcdCore num m w).s1 m, ?_, residue_lt _ hpos, ?_⟩
    · simp [inverseUnit, hpos.ne', hg, hc]
    · rw [hc] at hbez
      have : ((num * residue (xgcdCore num m w).s1 m % m : Nat) : Int) = ((1 % m : Nat) : Int) := by
        push_cast
        rw [residue_cast _ hpos, Int.mul_emod, Int.emod_emod_of_dvd _ (dvd_refl _), ← Int.mul_emod,
          (by push_cast at hbez; linarith : (num : Int) * (xgcdCore num m w).s1 = 1 + m * (-(xgcdCore num m w).t1)),
          Int.add_mul_emod_self_left]
      exact_mod_cast this
  · left
    exact ⟨hpos, hc, by simp [inverseUnit, hpos.ne', hg, hc]⟩

end Sys2Proof.Machine
end

