-- ==== Sys2Proof/Laws/State.lean ====
section
/-! SUPPORT. One lemma per field and update of the state, each true by rfl. -/

namespace Sys2Proof.Machine

/-! ### flagSuccess -/

@[simp] theorem flagSuccess_opa (a : Arch) : (flagSuccess a).opa = a.opa := rfl
@[simp] theorem flagSuccess_opb (a : Arch) : (flagSuccess a).opb = a.opb := rfl
@[simp] theorem flagSuccess_opc (a : Arch) : (flagSuccess a).opc = a.opc := rfl
@[simp] theorem flagSuccess_opd (a : Arch) : (flagSuccess a).opd = a.opd := rfl
@[simp] theorem flagSuccess_g (a : Arch) : (flagSuccess a).g = a.g := rfl
@[simp] theorem flagSuccess_r (a : Arch) : (flagSuccess a).r = a.r := rfl
@[simp] theorem flagSuccess_x (a : Arch) : (flagSuccess a).x = a.x := rfl
@[simp] theorem flagSuccess_y (a : Arch) : (flagSuccess a).y = a.y := rfl
@[simp] theorem flagSuccess_kn (a : Arch) : (flagSuccess a).kn = a.kn := rfl
@[simp] theorem flagSuccess_ke (a : Arch) : (flagSuccess a).ke = a.ke := rfl
@[simp] theorem flagSuccess_kd (a : Arch) : (flagSuccess a).kd = a.kd := rfl
@[simp] theorem flagSuccess_done (a : Arch) : (flagSuccess a).done = true := rfl
@[simp] theorem flagSuccess_err (a : Arch) : (flagSuccess a).err = false := rfl
@[simp] theorem flagSuccess_kvalid (a : Arch) : (flagSuccess a).kvalid = a.kvalid := rfl
@[simp] theorem flagSuccess_cause (a : Arch) : (flagSuccess a).cause = .none := rfl
@[simp] theorem flagSuccess_lastop (a : Arch) : (flagSuccess a).lastop = a.lastop := rfl

/-! ### flagError -/

@[simp] theorem flagError_opa (c : Cause) (a : Arch) : (flagError c a).opa = a.opa := rfl
@[simp] theorem flagError_opb (c : Cause) (a : Arch) : (flagError c a).opb = a.opb := rfl
@[simp] theorem flagError_opc (c : Cause) (a : Arch) : (flagError c a).opc = a.opc := rfl
@[simp] theorem flagError_opd (c : Cause) (a : Arch) : (flagError c a).opd = a.opd := rfl
@[simp] theorem flagError_g (c : Cause) (a : Arch) : (flagError c a).g = a.g := rfl
@[simp] theorem flagError_r (c : Cause) (a : Arch) : (flagError c a).r = a.r := rfl
@[simp] theorem flagError_x (c : Cause) (a : Arch) : (flagError c a).x = a.x := rfl
@[simp] theorem flagError_y (c : Cause) (a : Arch) : (flagError c a).y = a.y := rfl
@[simp] theorem flagError_kn (c : Cause) (a : Arch) : (flagError c a).kn = a.kn := rfl
@[simp] theorem flagError_ke (c : Cause) (a : Arch) : (flagError c a).ke = a.ke := rfl
@[simp] theorem flagError_kd (c : Cause) (a : Arch) : (flagError c a).kd = a.kd := rfl
@[simp] theorem flagError_done (c : Cause) (a : Arch) : (flagError c a).done = false := rfl
@[simp] theorem flagError_err (c : Cause) (a : Arch) : (flagError c a).err = true := rfl
@[simp] theorem flagError_kvalid (c : Cause) (a : Arch) : (flagError c a).kvalid = a.kvalid := rfl
@[simp] theorem flagError_cause (c : Cause) (a : Arch) : (flagError c a).cause = c := rfl
@[simp] theorem flagError_lastop (c : Cause) (a : Arch) : (flagError c a).lastop = a.lastop := rfl

/-! ### setLastop -/

@[simp] theorem setLastop_opa (op : BitVec 4) (a : Arch) : (setLastop op a).opa = a.opa := rfl
@[simp] theorem setLastop_opb (op : BitVec 4) (a : Arch) : (setLastop op a).opb = a.opb := rfl
@[simp] theorem setLastop_opc (op : BitVec 4) (a : Arch) : (setLastop op a).opc = a.opc := rfl
@[simp] theorem setLastop_opd (op : BitVec 4) (a : Arch) : (setLastop op a).opd = a.opd := rfl
@[simp] theorem setLastop_g (op : BitVec 4) (a : Arch) : (setLastop op a).g = a.g := rfl
@[simp] theorem setLastop_r (op : BitVec 4) (a : Arch) : (setLastop op a).r = a.r := rfl
@[simp] theorem setLastop_x (op : BitVec 4) (a : Arch) : (setLastop op a).x = a.x := rfl
@[simp] theorem setLastop_y (op : BitVec 4) (a : Arch) : (setLastop op a).y = a.y := rfl
@[simp] theorem setLastop_kn (op : BitVec 4) (a : Arch) : (setLastop op a).kn = a.kn := rfl
@[simp] theorem setLastop_ke (op : BitVec 4) (a : Arch) : (setLastop op a).ke = a.ke := rfl
@[simp] theorem setLastop_kd (op : BitVec 4) (a : Arch) : (setLastop op a).kd = a.kd := rfl
@[simp] theorem setLastop_done (op : BitVec 4) (a : Arch) : (setLastop op a).done = a.done := rfl
@[simp] theorem setLastop_err (op : BitVec 4) (a : Arch) : (setLastop op a).err = a.err := rfl
@[simp] theorem setLastop_kvalid (op : BitVec 4) (a : Arch) : (setLastop op a).kvalid = a.kvalid := rfl
@[simp] theorem setLastop_cause (op : BitVec 4) (a : Arch) : (setLastop op a).cause = a.cause := rfl
@[simp] theorem setLastop_lastop (op : BitVec 4) (a : Arch) : (setLastop op a).lastop = op := rfl

/-! ### endCommand -/

@[simp] theorem endCommand_arch (a : Arch) (s : State) : (endCommand a s).arch = a := rfl
@[simp] theorem endCommand_work (a : Arch) (s : State) : (endCommand a s).work = Config.freeWork s.freeIndex := rfl
@[simp] theorem endCommand_freeIndex (a : Arch) (s : State) : (endCommand a s).freeIndex = s.freeIndex + 1 := rfl
@[simp] theorem endCommand_host (a : Arch) (s : State) : (endCommand a s).host = s.host := rfl

/-! ### resetInput -/

@[simp] theorem resetInput_arch (s : State) : (resetInput s).arch = Arch.reset := rfl
@[simp] theorem resetInput_work (s : State) : (resetInput s).work = Config.freeWork s.freeIndex := rfl
@[simp] theorem resetInput_freeIndex (s : State) : (resetInput s).freeIndex = s.freeIndex + 1 := rfl
@[simp] theorem resetInput_host (s : State) : (resetInput s).host = s.host := rfl

/-! ### latchLastop -/

@[simp] theorem latchLastop_arch (v : Word) (s : State) : (latchLastop v s).arch = setLastop (opc4 v) s.arch := rfl
@[simp] theorem latchLastop_work (v : Word) (s : State) : (latchLastop v s).work = s.work := rfl
@[simp] theorem latchLastop_freeIndex (v : Word) (s : State) : (latchLastop v s).freeIndex = s.freeIndex := rfl
@[simp] theorem latchLastop_host (v : Word) (s : State) : (latchLastop v s).host = s.host := rfl

/-! ### returnWord -/

@[simp] theorem returnWord_arch (v : Word) (s : State) : (returnWord v s).arch = s.arch := rfl
@[simp] theorem returnWord_work (v : Word) (s : State) : (returnWord v s).work = s.work := rfl
@[simp] theorem returnWord_freeIndex (v : Word) (s : State) : (returnWord v s).freeIndex = s.freeIndex := rfl
@[simp] theorem returnWord_host (v : Word) (s : State) : (returnWord v s).host = { s.host with returned := s.host.returned ++ [v] } := rfl

/-! ### withEvent -/

@[simp] theorem withEvent_arch (e : HostEvent) (s : State) : (withEvent e s).arch = s.arch := rfl
@[simp] theorem withEvent_work (e : HostEvent) (s : State) : (withEvent e s).work = s.work := rfl
@[simp] theorem withEvent_freeIndex (e : HostEvent) (s : State) : (withEvent e s).freeIndex = s.freeIndex := rfl
@[simp] theorem withEvent_host (e : HostEvent) (s : State) : (withEvent e s).host = { s.host with pending := e :: s.host.pending } := rfl

/-! ### The operands depend on their register only -/

@[simp] theorem operandA_latchLastop (v : Word) (s : State) : operandA (latchLastop v s) = operandA s := rfl
@[simp] theorem operandB_latchLastop (v : Word) (s : State) : operandB (latchLastop v s) = operandB s := rfl
@[simp] theorem operandC_latchLastop (v : Word) (s : State) : operandC (latchLastop v s) = operandC s := rfl
@[simp] theorem operandD_latchLastop (v : Word) (s : State) : operandD (latchLastop v s) = operandD s := rfl

end Sys2Proof.Machine
end

