-- ==== Sys2Proof/Laws/Ops.lean ====
section
/-! SUPPORT. The shared operations, once each: narrowing and read-out, the end of a command, which accesses the model
gives a meaning, and what any command can do (rules R24, R180, R187, R188). -/

namespace Sys2Proof.Machine

/-! ### Narrowing and read-out -/

@[simp] theorem wordOf_toNat {n : Nat} (h : n < 2 ^ 32) : (wordOf n).toNat = n := by
  simp only [wordOf, BitVec.toNat_ofNat]; exact Nat.mod_eq_of_lt h

/-- The 64-bit encoding loses nothing of an integer in the range of rule R23. -/
theorem tc64_toInt {z : Int} (h1 : -2 ^ 63 ≤ z) (h2 : z < 2 ^ 63) : (tc64 z).toInt = z := by
  simp only [tc64, BitVec.toInt_ofInt]
  exact Int.bmod_eq_of_le (by norm_num; omega) (by norm_num; omega)

theorem loWord_toNat (d : DWord) : (loWord d).toNat = d.toNat % 2 ^ 32 := by
  simp [loWord, BitVec.extractLsb'_toNat]

theorem hiWord_toNat (d : DWord) : (hiWord d).toNat = d.toNat / 2 ^ 32 := by
  have := d.isLt
  simp only [hiWord, BitVec.extractLsb'_toNat, Nat.shiftRight_eq_div_pow]
  exact Nat.mod_eq_of_lt (by omega)

/-- The two halves make up the register again. -/
theorem hiWord_append_loWord (d : DWord) : hiWord d ++ loWord d = d := by
  apply BitVec.eq_of_toNat_eq
  rw [BitVec.toNat_append, hiWord_toNat, loWord_toNat, ← Nat.shiftLeft_add_eq_or_of_lt (Nat.mod_lt _ (by norm_num)),
    Nat.shiftLeft_eq]
  omega

/-! ### The end of a command -/

/-- The one thing error entry answers. -/
theorem raise_eq_next {c : Cause} {s t : State} : raise c s = .next t ↔ t = endCommand (flagError c s.arch) s := by
  simp only [raise, Host.Outcome.next.injEq]; exact eq_comm

/-- The one thing successful completion answers. -/
theorem complete_eq_next {a : Arch} {s t : State} : complete a s = .next t ↔ t = endCommand (flagSuccess a) s := by
  simp only [complete, Host.Outcome.next.injEq]; exact eq_comm

/-! ### Accesses -/

@[simp] theorem Reg.atOffset_offset (reg : Reg) : Reg.atOffset reg.offset = some reg := by cases reg <;> rfl

theorem Reg.atOffset_eq_some {o : Nat} {reg : Reg} (h : Reg.atOffset o = some reg) : o = reg.offset := by
  unfold Reg.atOffset at h
  split at h <;> simp at h <;> subst h <;> rfl

/-- An access that is not well-formed is refused, whatever its kind. -/
theorem resolveAccess_of_not_wf {a : HostAccess} (h : a.wf = false) : ∃ why, resolveAccess a = .error why := by
  unfold resolveAccess
  split
  · exact ⟨_, rfl⟩
  split
  · exact ⟨_, rfl⟩
  · rename_i h1 h2
    have hout : 64 ≤ a.offset := by simpa [HostAccess.wf, h1, h2, HostAccess.inBlock] using h
    cases hreg : Reg.atOffset a.offset with
    | none => exact ⟨_, rfl⟩
    | some reg =>
      have := Reg.atOffset_eq_some hreg
      cases reg <;> simp [Reg.offset] at this <;> omega

/-- A well-formed access reaches the register at its offset. -/
theorem resolveAccess_of_wf {a : HostAccess} (h : a.wf = true) :
    ∃ reg : Reg, resolveAccess a = .ok reg ∧ a.offset = reg.offset := by
  obtain ⟨kind, offset, bytes⟩ := a
  simp only [HostAccess.wf, HostAccess.wordWide, HostAccess.aligned, HostAccess.inBlock, Bool.and_eq_true, beq_iff_eq,
    decide_eq_true_eq] at h
  obtain ⟨⟨rfl, hal⟩, hlt⟩ := h
  have hreg : ∃ reg, Reg.atOffset offset = some reg := by
    have : ∀ o < 0x40, o % 4 = 0 → (Reg.atOffset o).isSome = true := by decide
    exact Option.isSome_iff_exists.1 (this offset hlt hal)
  obtain ⟨reg, hreg⟩ := hreg
  exact ⟨reg, by simp [resolveAccess, HostAccess.wordWide, HostAccess.aligned, hal, hreg], Reg.atOffset_eq_some hreg⟩

@[simp] theorem resolveAccess_word (kind : AccessKind) (reg : Reg) :
    resolveAccess { kind := kind, offset := reg.offset, bytes := 4 } = .ok reg := by
  have h : reg.offset % 4 = 0 := by cases reg <;> rfl
  simp [resolveAccess, HostAccess.wordWide, HostAccess.aligned, h]

/-! ### What any command can do -/

/-- `b` differs from `a` at most in the registers that rule R24 lets a successful `i` write. -/
def WritesOnly (i : Instr) (a b : Arch) : Prop :=
  match i with
  | .gcd => b = { a with g := b.g }
  | .xgcd => b = { a with g := b.g, x := b.x, y := b.y }
  | .modinv => b = { a with r := b.r }
  | .modexp => b = { a with r := b.r }
  | .keygen => b = { a with kn := b.kn, ke := b.ke, kd := b.kd, kvalid := b.kvalid }
  | .enc => b = { a with r := b.r }
  | .dec => b = { a with r := b.r }
  | .keyclr => b = { a with kn := b.kn, ke := b.ke, kd := b.kd, kvalid := b.kvalid }

/-- A command either enters the error with a cause or completes with its own registers written: there is no third case. -/
theorem exec_cases (i : Instr) (s : State) :
    (∃ c, c ≠ .none ∧ exec i s = raise c s) ∨ (∃ a, exec i s = complete a s ∧ WritesOnly i s.arch a) := by
  have inv : ∀ num m w c, inverseUnit num m w = .error c → c ≠ .none := by
    intro num m w c h
    simp only [inverseUnit] at h
    split at h
    · cases h; simp
    · split at h <;> cases h; simp
  have pow : ∀ m e n w c, powerUnit m e n w = .error c → c ≠ .none := by
    intro m e n w c h
    simp only [powerUnit] at h
    split at h <;> cases h; simp
  have key : ∀ e : Word, (∃ c, c ≠ .none ∧ keyPower e s = raise c s) ∨
      (∃ a, keyPower e s = complete a s ∧ a = { s.arch with r := a.r }) := by
    intro e
    unfold keyPower
    split
    · exact .inl ⟨.noKey, by simp, rfl⟩
    · split
      · rename_i h; exact .inl ⟨_, pow _ _ _ _ _ h, rfl⟩
      · exact .inr ⟨_, rfl, rfl⟩
  cases i with
  | gcd =>
    simp only [exec, execGcd, WritesOnly]
    split
    · exact .inl ⟨.divByZero, by simp, rfl⟩
    · exact .inr ⟨_, rfl, rfl⟩
  | xgcd =>
    simp only [exec, execXgcd, WritesOnly]
    split
    · exact .inl ⟨.divByZero, by simp, rfl⟩
    · exact .inr ⟨_, rfl, rfl⟩
  | modinv =>
    simp only [exec, execModinv, WritesOnly]
    split
    · rename_i h; exact .inl ⟨_, inv _ _ _ _ h, rfl⟩
    · exact .inr ⟨_, rfl, rfl⟩
  | modexp =>
    simp only [exec, execModexp, WritesOnly]
    split
    · rename_i h; exact .inl ⟨_, pow _ _ _ _ _ h, rfl⟩
    · exact .inr ⟨_, rfl, rfl⟩
  | keygen =>
    simp only [exec, execKeygen, WritesOnly]
    split
    · exact .inl ⟨.operandRange, by simp, rfl⟩
    split
    · exact .inl ⟨.overflow, by simp, rfl⟩
    split
    · rename_i h; exact .inl ⟨_, inv _ _ _ _ h, rfl⟩
    · exact .inr ⟨_, rfl, rfl⟩
  | enc => exact key _
  | dec => exact key _
  | keyclr => exact .inr ⟨_, rfl, rfl⟩

end Sys2Proof.Machine
end

