-- ==== Sys2Proof/Laws/PerInstr.lean ====
section
/-! SUPPORT. The family CommandFormat: a command word has the format CMD32 of rule R72 (ZERO is zero), with an opcode that
is neither of the illegal ones of rule R75 (0, 9 to 15). One lemma per command. -/

namespace Sys2Proof.Laws.CommandFormat

/-- A command's word is in the format CMD32 with an assigned opcode (rules R72, R74, R75). -/
def Statement (i : Instr) : Prop :=
  zeroField (encode i) = 0 ∧ 1 ≤ (opc4 (encode i)).toNat ∧ (opc4 (encode i)).toNat ≤ 8

theorem gcd : Statement .gcd := by unfold Statement; decide
theorem xgcd : Statement .xgcd := by unfold Statement; decide
theorem modinv : Statement .modinv := by unfold Statement; decide
theorem modexp : Statement .modexp := by unfold Statement; decide
theorem keygen : Statement .keygen := by unfold Statement; decide
theorem enc : Statement .enc := by unfold Statement; decide
theorem dec : Statement .dec := by unfold Statement; decide
theorem keyclr : Statement .keyclr := by unfold Statement; decide

end Sys2Proof.Laws.CommandFormat
end

