-- ==== Sys2Proof/Laws/Power.lean ====
section
/-! SUPPORT. What the exponentiation core computes (rules R141, R142) and the power unit's two outcomes. -/

namespace Sys2Proof.Machine

@[simp] theorem powerPass_md (w : PowerRegs) : (powerPass w).md = w.md := by
  unfold powerPass; split <;> rfl

@[simp] theorem powerPass_ex (w : PowerRegs) : (powerPass w).ex = w.ex / 2 := by
  unfold powerPass; split <;> rfl

@[simp] theorem powerPass_base (w : PowerRegs) : (powerPass w).base = w.base * w.base % w.md := by
  unfold powerPass; split <;> rfl

@[simp] theorem powerPass_acc (w : PowerRegs) :
    (powerPass w).acc = if w.ex % 2 = 1 then w.acc * w.base % w.md else w.acc := by
  unfold powerPass; split <;> rfl

/-- One pass keeps `acc · base^ex` modulo `md` (rule R142). -/
theorem powerPass_invariant (w : PowerRegs) :
    (powerPass w).acc * (powerPass w).base ^ (powerPass w).ex ≡ w.acc * w.base ^ w.ex [MOD w.md] := by
  have hsq : (w.base * w.base % w.md) ^ (w.ex / 2) ≡ w.base ^ (2 * (w.ex / 2)) [MOD w.md] := by
    rw [pow_mul, pow_two]; exact (Nat.mod_modEq _ _).pow _
  have hex := Nat.div_add_mod w.ex 2
  simp only [powerPass_acc, powerPass_base, powerPass_ex]
  split
  · rename_i hodd
    have : w.acc * w.base ^ w.ex = w.acc * w.base * w.base ^ (2 * (w.ex / 2)) := by
      conv_lhs => rw [← hex, hodd, pow_succ]
      ring
    rw [this]; exact (Nat.mod_modEq _ _).mul hsq
  · have : w.ex = 2 * (w.ex / 2) := by omega
    conv_rhs => rw [this]
    exact Nat.ModEq.mul_left _ hsq

/-- `acc` stays below the modulus. -/
theorem powerPass_acc_lt (w : PowerRegs) (hmd : 0 < w.md) (h : w.acc < w.md) : (powerPass w).acc < w.md := by
  rw [powerPass_acc]; split
  · exact Nat.mod_lt _ hmd
  · exact h

/-- `base` stays below the modulus. -/
theorem powerPass_base_lt (w : PowerRegs) (hmd : 0 < w.md) : (powerPass w).base < w.md := by
  rw [powerPass_base]; exact Nat.mod_lt _ hmd

/-- With an exponent below `2^fuel`, the loop ends with `acc · base^ex mod md` in `acc`. -/
theorem powerLoop_acc : ∀ (fuel : Nat) (w : PowerRegs), 0 < w.md → w.acc < w.md → w.ex < 2 ^ fuel →
    (powerLoop fuel w).acc = w.acc * w.base ^ w.ex % w.md := by
  intro fuel
  induction fuel with
  | zero =>
    intro w _ hacc hex
    have : w.ex = 0 := by simpa using hex
    simp [powerLoop, this, Nat.mod_eq_of_lt hacc]
  | succ fuel ih =>
    intro w hmd hacc hex
    by_cases h : w.ex = 0
    · simp [powerLoop, h, Nat.mod_eq_of_lt hacc]
    · simp only [powerLoop, h, if_false]
      rw [ih (powerPass w) (by simpa using hmd) (by simpa using powerPass_acc_lt w hmd hacc)
        (by rw [powerPass_ex]; rw [pow_succ] at hex; omega), powerPass_md]
      exact powerPass_invariant w

/-- `modexp_core(m, e, n) = (m ^ e) mod n`. -/
theorem modexpCore_acc {m e n : Nat} (w : PowerRegs) (hn : 0 < n) (he : e < 2 ^ 32) :
    (modexpCore m e n w).acc = m ^ e % n := by
  rw [modexpCore, powerLoop_acc _ _ hn (Nat.mod_lt _ hn) he]
  simp only [powerSeed]
  exact ((Nat.mod_modEq 1 n).mul ((Nat.mod_modEq m n).pow e)).trans (by rw [one_mul])

/-- The power unit in one lemma: it fails on a zero modulus and else answers the power's residue. -/
theorem powerUnit_eq {m e n : Nat} (w : PowerRegs) (he : e < 2 ^ 32) :
    powerUnit m e n w = if n = 0 then .error .divByZero else .ok (m ^ e % n) := by
  unfold powerUnit
  split
  · rfl
  · rename_i hn; rw [modexpCore_acc w (Nat.pos_of_ne_zero hn) he]

@[simp] theorem formPhi_phi (p q : Nat) (w : PowerRegs) : (formPhi p q w).phi = (p - 1) * (q - 1) := rfl

end Sys2Proof.Machine
end

