-- ==== Sys2Proof/Laws/Step.lean ====
section
/-! SUPPORT. The inversion of one step: what can have happened when it answers a next state, and when it can refuse (rules
R25, R50, R51, R53, R59, R82, R211). -/

namespace Sys2Proof.Machine

/-- The state in which the oldest pending event has been taken up. -/
def taking (rest : List HostEvent) (s : State) : State := { s with host := { s.host with pending := rest } }

@[simp] theorem taking_arch (rest : List HostEvent) (s : State) : (taking rest s).arch = s.arch := rfl
@[simp] theorem taking_work (rest : List HostEvent) (s : State) : (taking rest s).work = s.work := rfl
@[simp] theorem taking_freeIndex (rest : List HostEvent) (s : State) : (taking rest s).freeIndex = s.freeIndex := rfl
@[simp] theorem taking_pending (rest : List HostEvent) (s : State) : (taking rest s).host.pending = rest := rfl
@[simp] theorem taking_returned (rest : List HostEvent) (s : State) :
    (taking rest s).host.returned = s.host.returned := rfl

/-- Taking up the event that was just put first gives the state back. -/
@[simp] theorem taking_withEvent (e : HostEvent) (s : State) : taking s.host.pending (withEvent e s) = s := rfl

theorem step_of_pending {s : State} {e : HostEvent} {rest : List HostEvent} (h : s.host.pending = e :: rest) :
    step s = hostEvent e (taking rest s) := by
  simp only [step, performNext, h]; rfl

/-- The step that performs an event placed first. -/
theorem step_withEvent (e : HostEvent) (s : State) : step (withEvent e s) = hostEvent e s := rfl

/-- A 32-bit read at a register's offset. -/
theorem hostEvent_read (reg : Reg) (s : State) :
    hostEvent (wordAccess .read reg.offset) s = .next (returnWord (regWord s.arch reg) s) := by
  simp [hostEvent, wordAccess, hostAccess, regRead]

/-- A 32-bit write at a register's offset. -/
theorem hostEvent_write (reg : Reg) (v : Word) (s : State) :
    hostEvent (wordAccess (.write v) reg.offset) s = regWrite reg v s := by
  simp [hostEvent, wordAccess, hostAccess]

theorem hostEvent_command (v : Word) (s : State) : hostEvent (commandEvent v) s = cmdWrite v s :=
  hostEvent_write .cmd v s

/-- A CMD write never stops: its word is illegal or its command runs (rules R75, R82). -/
theorem cmdWrite_cases (v : Word) (s : State) :
    (∃ e, decode v = .error e ∧ cmdWrite v s = raise .illegalCmd (latchLastop v s)) ∨
    (∃ i, decode v = .ok i ∧ cmdWrite v s = exec i (latchLastop v s)) := by
  unfold cmdWrite
  cases h : decode v with
  | error e => exact .inl ⟨e, rfl, rfl⟩
  | ok i => exact .inr ⟨i, rfl, rfl⟩

/-- Everything one step can do when it answers a next state. -/
theorem step_cases {s t : State} (h : step s = .next t) :
    (s.host.pending = [] ∧ t = s) ∨
    (∃ rest, s.host.pending = .reset :: rest ∧ t = resetInput (taking rest s)) ∨
    (∃ (reg : Reg) (rest : List HostEvent), s.host.pending = wordAccess .read reg.offset :: rest ∧
      t = returnWord (regWord s.arch reg) (taking rest s)) ∨
    (∃ (reg : Reg) (v : Word) (rest : List HostEvent), reg ≠ .cmd ∧
      s.host.pending = wordAccess (.write v) reg.offset :: rest ∧
      t = { taking rest s with arch := storeReg s.arch v reg }) ∨
    (∃ (v : Word) (rest : List HostEvent), s.host.pending = commandEvent v :: rest ∧
      cmdWrite v (taking rest s) = .next t) := by
  cases hp : s.host.pending with
  | nil => left; simp only [step, performNext, hp, Host.Outcome.next.injEq] at h; exact ⟨rfl, h.symm⟩
  | cons e rest =>
    right
    rw [step_of_pending hp] at h
    cases e with
    | reset =>
      left; simp only [hostEvent, Host.Outcome.next.injEq] at h; exact ⟨rest, rfl, h.symm⟩
    | access a =>
      right
      by_cases hwf : a.wf = true
      · obtain ⟨reg, hres, hoff⟩ := resolveAccess_of_wf hwf
        obtain ⟨kind, offset, bytes⟩ := a
        have hb : bytes = 4 := by
          simp only [HostAccess.wf, HostAccess.wordWide, Bool.and_eq_true, beq_iff_eq] at hwf; exact hwf.1.1
        simp only at hoff
        subst hb hoff
        simp only [hostEvent, hostAccess, hres] at h
        cases kind with
        | read =>
          left; simp only [regRead, Host.Outcome.next.injEq] at h
          exact ⟨reg, rest, rfl, h.symm⟩
        | write v =>
          right
          by_cases hc : reg = .cmd
          · right; subst hc; simp only [regWrite, if_true] at h
            exact ⟨v, rest, rfl, h⟩
          · left; simp only [regWrite, hc, if_false, Host.Outcome.next.injEq] at h
            exact ⟨reg, v, rest, hc, rfl, h.symm⟩
      · obtain ⟨why, hw⟩ := resolveAccess_of_not_wf (Bool.not_eq_true _ ▸ hwf)
        simp [hostEvent, hostAccess, hw] at h

end Sys2Proof.Machine
end

