-- ==== Sys2Proof/Tests/Slice0.lean ====
section
/-! SUPPORT. Tests of one step each, their expected results taken from the spec (the vectors of 95_test_vectors.md by their
ids, the examples of the rules by their numbers), the smoke tests of WellFormed, and for every statement with hypotheses a
witness that meets them. -/

namespace Sys2Proof.Tests

open Sys2Proof.Machine

/-! ### Helpers -/

/-- The reset state with the four operand registers written. -/
def ops (a b c d : Word) : State :=
  { State.reset with arch := { Arch.reset with opa := a, opb := b, opc := c, opd := d } }

/-- The same with a key in the slot. -/
def keyed (n e d m : Word) : State :=
  { State.reset with arch := { Arch.reset with opa := m, kn := n, ke := e, kd := d, kvalid := true } }

/-- The architectural state of an outcome that goes on. -/
def archOf : Result → Option Arch
  | .next t => some t.arch
  | .fault _ => none
  | .refused _ => none

/-- The words returned to the host by an outcome that goes on. -/
def returnedOf : Result → Option (List Word)
  | .next t => some t.host.returned
  | .fault _ => none
  | .refused _ => none

/-- Why an outcome is a refusal, if it is one. -/
def refusalOf : Result → Option Refusal
  | .next _ => none
  | .fault _ => none
  | .refused why => some why

/-- STATUS after the CMD write of a word. -/
def statusAfter (v : Word) (s : State) : Option Word := (archOf (step (writingCmd v s))).map statusWord

/-! ### Decoding: the words of rule R74, bit by bit in the format of rule R72 -/

theorem test_decode_gcd : decode 0b0000000000000000000000000000_0001#32 = .ok .gcd := by decide
theorem test_decode_xgcd : decode 0b0000000000000000000000000000_0010#32 = .ok .xgcd := by decide
theorem test_decode_modinv : decode 0b0000000000000000000000000000_0011#32 = .ok .modinv := by decide
theorem test_decode_modexp : decode 0b0000000000000000000000000000_0100#32 = .ok .modexp := by decide
theorem test_decode_keygen : decode 0b0000000000000000000000000000_0101#32 = .ok .keygen := by decide
theorem test_decode_enc : decode 0b0000000000000000000000000000_0110#32 = .ok .enc := by decide
theorem test_decode_dec : decode 0b0000000000000000000000000000_0111#32 = .ok .dec := by decide
theorem test_decode_keyclr : decode 0b0000000000000000000000000000_1000#32 = .ok .keyclr := by decide

/-- Vectors Z-1, Z-2, Z-3, Z-4, Z-5, Z-6. -/
theorem test_decode_illegal_words :
    decode 0x00000000 = .error .opcodeZero ∧ decode 0x00000009 = .error .opcodeUnassigned ∧
    decode 0x0000000F = .error .opcodeUnassigned ∧ decode 0x00000011 = .error .zeroFieldNotZero ∧
    decode 0x80000001 = .error .zeroFieldNotZero ∧ decode 0xFFFFFFFF = .error .zeroFieldNotZero := by decide

/-- A table row's bits, with higher bits zero, and a row longer than a command word. -/
theorem test_decodeTableWord :
    decodeTableWord 32 2 = some .xgcd ∧ decodeTableWord 8 8 = some .keyclr ∧ decodeTableWord 32 0x11 = none ∧
    decodeTableWord 64 0x100000001 = none := by decide

/-! ### WellFormed: one ill-formed term for each check -/

theorem test_wf_access : (HostAccess.mk .read 0x3C 4).wf = true := by decide
theorem test_wf_refuses_narrow_access : (HostAccess.mk .read 0x04 2).wf = false := by decide
theorem test_wf_refuses_misaligned_access : (HostAccess.mk (.write 1) 0x0A 4).wf = false := by decide
theorem test_wf_refuses_access_beyond_block : (HostAccess.mk .read 0x40 4).wf = false := by decide
theorem test_wf_line : (Line.wr .opa 0xFFFFFFFF).wf = true := by decide
theorem test_wf_refuses_value_of_33_bits : (Line.wr .opa 0x100000000).wf = false := by decide
theorem test_wf_refuses_write_of_unnamed_word : (Line.wr .reserved 0).wf = false := by decide
theorem test_wf_refuses_read_of_unnamed_word : (Line.rd .reserved).wf = false := by decide
theorem test_wf_refuses_macro_operand_of_33_bits : (Macro.keygen 253 7 0x100000000 23).wf = false := by decide

/-! ### The commands -/

/-- Vector G-2. -/
theorem test_gcd_smaller_first : (archOf (exec .gcd (ops 18 48 0 0))).map (·.g) = some 6 := by decide

/-- Vector G-5: both zero. -/
theorem test_gcd_zero_divisor : statusAfter 1 (ops 0 0 0 0) = some 0x00000122 := by decide

/-- Vector X-18 (rule R112, conflict C1: the seeds are not the literal ones). -/
theorem test_xgcd_negative_coefficient :
    (archOf (exec .xgcd (ops 17 3120 0 0))).map (fun a => (a.g, a.x, a.y)) =
      some (1, 0xFFFFFFFFFFFFFE91, 0x0000000000000002) := by decide

/-- Vector X-24: 45 passes, the largest coefficients of the tables. -/
theorem test_xgcd_many_passes :
    (archOf (exec .xgcd (ops 2971215073 1836311903 0 0))).map (fun a => (a.g, a.x, a.y)) =
      some (1, 0xFFFFFFFFD6315A23, 0x0000000043A53F82) := by decide

/-- Vector I-16: x = −2 is normalised. -/
theorem test_modinv_normalises : (archOf (exec .modinv (ops 3 7 0 0))).map (·.r) = some 5 := by decide

/-- Vector I-14b: DIV_BY_ZERO before NOT_INVERTIBLE. -/
theorem test_modinv_priority : statusAfter 3 (ops 0 0 0 0) = some 0x00000322 := by decide

/-- Vector M-15: products near 2^64, a result above 2^31. -/
theorem test_modexp_wide :
    (archOf (exec .modexp (ops 2 4294967295 4294967295 0))).map (·.r) = some 2147483648 := by decide

/-- Vector M-8: e = 0 and n = 1 give 1 mod 1 = 0. -/
theorem test_modexp_modulus_one : (archOf (exec .modexp (ops 5 0 1 0))).map (·.r) = some 0 := by decide

/-- Vector K-1, with STATUS. -/
theorem test_keygen_key :
    (archOf (step (writingCmd 5 (ops 253 7 11 23)))).map (fun a => (a.kn, a.ke, a.kd, statusWord a)) =
      some (253, 7, 63, 0x00000505) := by decide

/-- Vector K-21: OVERFLOW before NOT_INVERTIBLE. -/
theorem test_keygen_priority : statusAfter 5 (ops 253 11 65537 65537) = some 0x00000552 := by decide

/-- Vectors I-4 and K-7: the codes of NOT_INVERTIBLE and OPERAND_RANGE in STATUS. -/
theorem test_cause_codes_3_and_4 :
    statusAfter 3 (ops 13 26 0 0) = some 0x00000332 ∧ statusAfter 5 (ops 253 7 0 23) = some 0x00000542 := by decide

/-- Vector E-1. -/
theorem test_enc : (archOf (exec .enc (keyed 253 7 63 66))).map (·.r) = some 44 := by decide

/-- Vector E-7: KN = 0 with a key held. -/
theorem test_enc_zero_modulus : statusAfter 6 (keyed 0 7 63 66) = some 0x00000626 := by decide

/-- Vector E-2. -/
theorem test_dec : (archOf (exec .dec (keyed 253 7 63 44))).map (·.r) = some 66 := by decide

/-- Vector E-6: no key. -/
theorem test_dec_no_key : statusAfter 7 (ops 44 0 0 0) = some 0x00000762 := by decide

/-- Vector E-14. -/
theorem test_keyclr :
    (archOf (step (writingCmd 8 (keyed 253 7 63 0)))).map (fun a => (a.kn, a.ke, a.kd, statusWord a)) =
      some (0, 0, 0, 0x00000801) := by decide

/-! ### Decode errors, accesses, reset -/

/-- Vector Z-7: an illegal word with a key held. -/
theorem test_illegal_word_keeps_the_key : statusAfter 9 (keyed 253 7 63 0) = some 0x00000916 := by decide

/-- The examples of rule R102: X = −701408733 read at 0x24. -/
theorem test_read_high_word :
    returnedOf (step (reading 0x24
      { State.reset with arch := { Arch.reset with x := tc64 (-701408733) } })) = some [0xFFFFFFFF] := by decide

/-- The same register read at 0x20. -/
theorem test_read_low_word :
    returnedOf (step (reading 0x20
      { State.reset with arch := { Arch.reset with x := tc64 (-701408733) } })) = some [0xD6315A23] := by decide

/-- Vector Z-11: a write of G is ignored. -/
theorem test_write_of_g_ignored :
    archOf (step (writing 0x18 0x12345678 (ops 48 18 0 0))) = some (ops 48 18 0 0).arch := by decide

/-- Rules R53 and R54: the three refusals. -/
theorem test_refusals :
    refusalOf (hostAccess ⟨.read, 0x04, 1⟩ State.reset) = some .accessWidth ∧
    refusalOf (hostAccess ⟨.read, 0x06, 4⟩ State.reset) = some .misalignedAccess ∧
    refusalOf (hostAccess ⟨.write 1, 0x40, 4⟩ State.reset) = some .outsideBlock := by decide

/-- Rule R210: the reset input empties the key slot. -/
theorem test_reset_input : archOf (step (withEvent .reset (keyed 253 7 63 66))) = some Arch.reset := by decide

/-- The host's placing of a word: KEYCLR is the first command after reset (vector E-16). -/
theorem test_fetch_word_runs_first :
    (archOf (step (State.reset.withFetchWord 32 8))).map statusWord = some 0x00000801 := by decide

/-- Rule R80: the expansion of `keygen n, e, p, q` has five transactions, in register order. -/
theorem test_macro_keygen :
    macroEvents (.keygen 253 7 11 23) =
      [.access ⟨.write 253, 0x08, 4⟩, .access ⟨.write 7, 0x0C, 4⟩, .access ⟨.write 11, 0x10, 4⟩,
        .access ⟨.write 23, 0x14, 4⟩, .access ⟨.write 5, 0x00, 4⟩] := by decide

/-! ### Witnesses: states and operands that meet the hypotheses of the statements, clause by clause -/

/-- The state in which a run of the host has exactly these events left. -/
def awaiting (events : List HostEvent) (s : State) : State := { s with host := { s.host with pending := events } }

/-- A key is held and XGCD has run on (7, 220): what a run reaches after `keygen 253, 7, 11, 23` and `xgcd 7, 220`. -/
def afterXgcd : State :=
  { State.reset with arch := { Arch.reset with
      opa := 7, opb := 220, opc := 11, opd := 23, g := 1, x := 63, y := tc64 (-2),
      kn := 253, ke := 7, kd := 63, done := true, kvalid := true, lastop := 2 } }

theorem witness_IllegalWordsReportIllegalCmdAndRunNothing :
    ((0 : Word) = 0 ∨ 8 < (0 : Word).toNat) ∧ 8 < (9 : Word).toNat ∧ 8 < (0x80000001 : Word).toNat := by decide

/-- Both branches: ZERO not zero, opcode 0, opcode 9; and the first and last opcode. -/
theorem witness_CmdWriteLatchesLastopThenTestsThenRuns :
    (0x11 : Word).extractLsb' 4 28 ≠ 0 ∧ ((0 : Word).extractLsb' 0 4).toNat = 0 ∧
    8 < ((9 : Word).extractLsb' 0 4).toNat ∧
    ((1 : Word).extractLsb' 4 28 = 0 ∧ 1 ≤ ((1 : Word).extractLsb' 0 4).toNat ∧
      ((8 : Word).extractLsb' 4 28 = 0 ∧ ((8 : Word).extractLsb' 0 4).toNat ≤ 8)) := by decide

theorem witness_StepRunsTheDecodedCommand :
    (awaiting [commandEvent 2, .reset] State.reset).host.pending = commandEvent 2 :: [.reset] ∧
    decode 2 = .ok .xgcd ∧ decodeTableWord 32 8 = some .keyclr := by decide

/-- The first offset of the map, the high word of a negative Y, and the last offset. -/
theorem witness_ReadsReturnTheMapAndChangeNothing :
    ∀ p ∈ [(0x00, 0#32), (0x2C, 0xFFFFFFFF#32), (0x3C, 0#32)],
      p ∈ [(0x00, 0#32), (0x04, statusWord afterXgcd.arch), (0x08, afterXgcd.arch.opa), (0x0C, afterXgcd.arch.opb),
        (0x10, afterXgcd.arch.opc), (0x14, afterXgcd.arch.opd), (0x18, afterXgcd.arch.g), (0x1C, afterXgcd.arch.r),
        (0x20, BitVec.ofNat 32 (afterXgcd.arch.x.toNat % 2 ^ 32)),
        (0x24, BitVec.ofNat 32 (afterXgcd.arch.x.toNat / 2 ^ 32)),
        (0x28, BitVec.ofNat 32 (afterXgcd.arch.y.toNat % 2 ^ 32)),
        (0x2C, BitVec.ofNat 32 (afterXgcd.arch.y.toNat / 2 ^ 32)),
        (0x30, afterXgcd.arch.kn), (0x34, afterXgcd.arch.ke), (0x38, afterXgcd.arch.kd), (0x3C, 0#32)] := by decide

theorem witness_WritesReachOperandsAndCmdOnly :
    (0x3C % 4 = 0 ∧ 0x3C ≤ 0x3C ∧ 0x3C ∉ [0x00, 0x08, 0x0C, 0x10, 0x14]) ∧
    (0x04 % 4 = 0 ∧ 0x04 ≤ 0x3C ∧ 0x04 ∉ [0x00, 0x08, 0x0C, 0x10, 0x14]) := by decide

theorem witness_ReadOnlyRegistersIgnoreWritesAndPortsReadZero :
    0x04 ∈ [0x04, 0x18, 0x1C, 0x20, 0x24, 0x28, 0x2C, 0x30, 0x34, 0x38, 0x3C] ∧
    0x3C ∈ [0x04, 0x18, 0x1C, 0x20, 0x24, 0x28, 0x2C, 0x30, 0x34, 0x38, 0x3C] := by decide

/-- An access for each clause, at the edges: 2 bytes, offset 3, offset 0x40; and the last offset that is not refused. -/
theorem witness_OnlyMalformedAccessesStopTheMachine :
    (∃ rest, (awaiting [.access ⟨.read, 0, 2⟩] State.reset).host.pending = .access ⟨.read, 0, 2⟩ :: rest) ∧ 2 ≠ 4 ∧
    (∃ rest, (awaiting [.access ⟨.read, 3, 4⟩] State.reset).host.pending = .access ⟨.read, 3, 4⟩ :: rest) ∧ 3 % 4 ≠ 0 ∧
    (∃ rest, (awaiting [.access ⟨.read, 0x40, 4⟩] State.reset).host.pending = .access ⟨.read, 0x40, 4⟩ :: rest) ∧
    0x3C < 0x40 ∧
    (∃ rest, (awaiting [.access ⟨.read, 0x3C, 4⟩] State.reset).host.pending = .access ⟨.read, 0x3C, 4⟩ :: rest) :=
  ⟨⟨_, rfl⟩, by decide, ⟨_, rfl⟩, by decide, ⟨_, rfl⟩, by decide, ⟨_, rfl⟩⟩

theorem witness_StepsFollowTheOrderOfArrival :
    State.reset.host.pending = [] ∧ (∃ t, step (awaiting [commandEvent 2] afterXgcd) = .next t) ∧
    (∃ t, step (awaiting [.reset] afterXgcd) = .next t) := ⟨rfl, ⟨_, rfl⟩, ⟨_, rfl⟩⟩

theorem witness_HostAssemblesTheSignedPair : afterXgcd.host.returned.length = 0 := by decide

theorem witness_OperandWritesCommute :
    0x08 ∈ [0x08, 0x0C, 0x10, 0x14] ∧ 0x14 ∈ [0x08, 0x0C, 0x10, 0x14] ∧ 0x08 ≠ 0x14 := by decide

/-- Both edges of the block inside it, and the first address after it. -/
theorem witness_BlockIsSixtyFourBytesFromBase :
    (Config.base ≤ Config.base ∧ Config.base ≤ Config.base + 0x3F) ∧
    (Config.base ≤ Config.base + 0x3F ∧ Config.base + 0x3F ≤ Config.base + 0x3F) ∧
    ¬(Config.base ≤ Config.base + 0x40 ∧ Config.base + 0x40 ≤ Config.base + 0x3F) := by omega

theorem witness_GcdWritesTheGreatestCommonDivisor :
    (ops 48 18 0 0).arch.opb ≠ 0 ∧ (ops 0 0xFFFFFFFF 0 0).arch.opb ≠ 0 ∧ (ops 5 0 0 0).arch.opb = 0 := by decide

theorem witness_GcdResultDividesBothAndIsSymmetricOffZero :
    ((ops 48 18 0 0).arch.opa ≠ 0 ∧ (ops 48 18 0 0).arch.opb ≠ 0 ∧
      (ops 18 48 0 0).arch.opa = (ops 48 18 0 0).arch.opb ∧ (ops 18 48 0 0).arch.opb = (ops 48 18 0 0).arch.opa) ∧
    (∃ t, exec .gcd (ops 48 18 0 0) = .next t) ∧ (∃ t, exec .gcd (ops 18 48 0 0) = .next t) ∧
    ((ops 5 0 0 0).arch.opa = 5 ∧ (ops 5 0 0 0).arch.opb = 0 ∧ ∃ t, exec .gcd (ops 5 0 0 0) = .next t) ∧
    ((ops 0 5 0 0).arch.opa = 0 ∧ (ops 0 5 0 0).arch.opb = 5 ∧ ∃ t, exec .gcd (ops 0 5 0 0) = .next t) :=
  ⟨by decide, ⟨_, rfl⟩, ⟨_, rfl⟩, ⟨rfl, rfl, _, rfl⟩, ⟨rfl, rfl, _, rfl⟩⟩

theorem witness_XgcdWritesTheGcdWithItsBezoutPair :
    (ops 7 220 0 0).arch.opb ≠ 0 ∧ (ops 0xFFFFFFFF 1 0 0).arch.opb ≠ 0 ∧ (ops 5 0 0 0).arch.opb = 0 := by decide

theorem witness_XgcdPairObeysTheRecurrence :
    ((ops 12 4 0 0).arch.opb ≠ 0 ∧ (ops 12 4 0 0).arch.opa.toNat % (ops 12 4 0 0).arch.opb.toNat = 0 ∧
      ∃ t, exec .xgcd (ops 12 4 0 0) = .next t) ∧
    ((ops 240 46 0 0).arch.opb ≠ 0 ∧ (ops 240 46 0 0).arch.opa.toNat % (ops 240 46 0 0).arch.opb.toNat ≠ 0 ∧
      (ops 46 10 0 0).arch.opa = (ops 240 46 0 0).arch.opb ∧
      (ops 46 10 0 0).arch.opb.toNat = (ops 240 46 0 0).arch.opa.toNat % (ops 240 46 0 0).arch.opb.toNat ∧
      (∃ t, exec .xgcd (ops 240 46 0 0) = .next t) ∧ ∃ t, exec .xgcd (ops 46 10 0 0) = .next t) :=
  ⟨⟨by decide, by decide, _, rfl⟩, by decide, by decide, by decide, by decide, ⟨_, rfl⟩, ⟨_, rfl⟩⟩

theorem witness_XgcdIsBezoutAgreesWithGcdAndSwaps :
    ((ops 7 220 0 0).arch.opa ≠ 0 ∧ (ops 7 220 0 0).arch.opb ≠ 0 ∧
      (ops 220 7 0 0).arch.opa = (ops 7 220 0 0).arch.opb ∧ (ops 220 7 0 0).arch.opb = (ops 7 220 0 0).arch.opa ∧
      (ops 7 220 0 0).arch.opa ≠ (ops 7 220 0 0).arch.opb) ∧
    (ops 7 7 0 0).arch.opa = (ops 7 7 0 0).arch.opb ∧
    (∃ t, exec .xgcd (ops 7 220 0 0) = .next t) ∧ (∃ t, exec .xgcd (ops 220 7 0 0) = .next t) ∧
    (∃ t, exec .gcd (ops 7 220 0 0) = .next t) ∧ (∃ t, exec .xgcd (ops 7 7 0 0) = .next t) :=
  ⟨by decide, by decide, ⟨_, rfl⟩, ⟨_, rfl⟩, ⟨_, rfl⟩, ⟨_, rfl⟩⟩

theorem witness_DeliveredCoefficientsAreBounded :
    (ops 2971215073 1836311903 0 0).arch.opb ≠ 0 ∧ ∃ t, exec .xgcd (ops 2971215073 1836311903 0 0) = .next t :=
  ⟨by decide, _, rfl⟩

theorem witness_EveryRowIsACombinationWithinItsBound :
    0 < 220 ∧ 7 < 2 ^ 32 ∧ 220 < 2 ^ 32 ∧ ∃ w, w = xgcdLoop 2 (xgcdSeed 7 220 State.reset.work.euclid) :=
  ⟨by decide, by decide, by decide, _, rfl⟩

theorem witness_EuclideanLoopsExitWithinTwicePerBit :
    (0 < 220 ∧ 220 < 2 ^ 8 ∧ 2 * 8 ≤ 16) ∧ (0 < 4294967295 ∧ 4294967295 < 2 ^ 32 ∧ 2 * 32 ≤ 64) := by decide

theorem witness_ResidueIsTheSourcesFormula : 1 ≤ 1 ∧ 1 ≤ 3120 := by decide

theorem witness_ModinvWritesTheInverseOrSaysWhyNot :
    (ops 5 0 0 0).arch.opb.toNat = 0 ∧
    ((ops 13 26 0 0).arch.opb.toNat ≠ 0 ∧
      Nat.gcd (ops 13 26 0 0).arch.opa.toNat (ops 13 26 0 0).arch.opb.toNat ≠ 1) ∧
    ((ops 17 3120 0 0).arch.opb.toNat ≠ 0 ∧
      Nat.gcd (ops 17 3120 0 0).arch.opa.toNat (ops 17 3120 0 0).arch.opb.toNat = 1) ∧
    Nat.gcd (ops 5 1 0 0).arch.opa.toNat (ops 5 1 0 0).arch.opb.toNat = 1 := by decide

theorem witness_ModinvResultIsTheOnlyInverse :
    (2 ≤ (ops 17 3120 0 0).arch.opb.toNat ∧ ∃ t, exec .modinv (ops 17 3120 0 0) = .next t ∧ t.arch.done = true) ∧
    (ops 5 1 0 0).arch.opb = 1 :=
  ⟨⟨by decide, _, rfl, rfl⟩, rfl⟩

theorem witness_ModexpWritesThePowersResidue :
    (ops 66 7 253 0).arch.opc ≠ 0 ∧ (ops 5 0 1 0).arch.opc ≠ 0 ∧ (ops 5 3 0 0).arch.opc = 0 := by decide

/-- 2^3 and 2^4 modulo 1000, then 2^7; and 8^4 with 2^12. -/
theorem witness_ModexpObeysTheLawsOfPowers :
    ((ops 2 3 1000 0).arch.opc ≠ 0 ∧ (ops 2 4 1000 0).arch.opc = (ops 2 3 1000 0).arch.opc ∧
      (ops 2 7 1000 0).arch.opb.toNat = (ops 2 3 1000 0).arch.opb.toNat + (ops 2 4 1000 0).arch.opb.toNat ∧
      (ops 2 12 1000 0).arch.opb.toNat = (ops 2 3 1000 0).arch.opb.toNat * (ops 8 4 1000 0).arch.opb.toNat) ∧
    (∃ t, exec .modexp (ops 2 3 1000 0) = .next t ∧ (ops 8 4 1000 0).arch.opa = t.arch.r) ∧
    (∃ t, exec .modexp (ops 2 4 1000 0) = .next t) ∧ (∃ t, exec .modexp (ops 2 7 1000 0) = .next t) ∧
    (∃ t, exec .modexp (ops 8 4 1000 0) = .next t) ∧ (∃ t, exec .modexp (ops 2 12 1000 0) = .next t) :=
  ⟨by decide, ⟨_, rfl, by decide⟩, ⟨_, rfl⟩, ⟨_, rfl⟩, ⟨_, rfl⟩, ⟨_, rfl⟩⟩

theorem witness_ExponentLoopTakesOnePassPerBit : 0 < 1 ∧ 0 < 253 := by decide

/-- `(p − 1)·(q − 1)` of the operands in OPC and OPD. -/
def phiOf (s : State) : Nat := (s.arch.opc.toNat - 1) * (s.arch.opd.toNat - 1)

/-- `p` and `q` are not 0 and `(p − 1)·(q − 1)` is in the range of the inverse unit. -/
def phiInRange (s : State) : Bool :=
  decide (s.arch.opc.toNat ≠ 0 ∧ s.arch.opd.toNat ≠ 0 ∧ 0 < phiOf s ∧ phiOf s < 2 ^ 32)

/-- Operands for each of KEYGEN's five clauses: vectors K-7, K-8, K-16, K-10, K-4, K-1, and phi = 1 (K-13). -/
theorem witness_KeygenDerivesThePrivateExponentOrSaysWhyNot :
    (ops 253 7 0 23).arch.opc.toNat = 0 ∧ (ops 253 7 11 0).arch.opd.toNat = 0 ∧
    ((ops 253 3 65537 65537).arch.opc.toNat ≠ 0 ∧ (ops 253 3 65537 65537).arch.opd.toNat ≠ 0 ∧
      2 ^ 32 ≤ phiOf (ops 253 3 65537 65537)) ∧
    ((ops 253 7 1 23).arch.opc.toNat ≠ 0 ∧ (ops 253 7 1 23).arch.opd.toNat ≠ 0 ∧ phiOf (ops 253 7 1 23) = 0) ∧
    (phiInRange (ops 253 11 11 23) = true ∧ Nat.gcd 11 (phiOf (ops 253 11 11 23)) ≠ 1) ∧
    (phiInRange (ops 253 7 11 23) = true ∧ Nat.gcd 7 (phiOf (ops 253 7 11 23)) = 1) ∧
    (phiInRange (ops 4 5 2 2) = true ∧ Nat.gcd 5 (phiOf (ops 4 5 2 2)) = 1) := by decide

theorem witness_EncRaisesToThePublicExponent :
    (ops 66 0 0 0).arch.kvalid = false ∧ ((keyed 0 7 63 66).arch.kvalid = true ∧ (keyed 0 7 63 66).arch.kn = 0) ∧
    ((keyed 253 7 63 66).arch.kvalid = true ∧ (keyed 253 7 63 66).arch.kn ≠ 0) := by decide

theorem witness_DecRaisesToThePrivateExponent :
    (ops 44 0 0 0).arch.kvalid = false ∧ ((keyed 0 7 63 44).arch.kvalid = true ∧ (keyed 0 7 63 44).arch.kn = 0) ∧
    ((keyed 253 7 63 44).arch.kvalid = true ∧ (keyed 253 7 63 44).arch.kn ≠ 0) := by decide

/-- Vector E-3: 300 = 253 + 47. -/
theorem witness_LargeCodePointsAreReducedWithoutError :
    (keyed 253 7 63 300).arch.kvalid = true ∧ (keyed 253 7 63 300).arch.kn ≠ 0 ∧
    (47 : Word).toNat = (keyed 253 7 63 300).arch.opa.toNat % (keyed 253 7 63 300).arch.kn.toNat := by decide

/-- The source's example (S5): p = 11, q = 23, n = 253, e = 7. -/
theorem witness_RsaRoundTripReturnsTheCodePoint :
    Nat.Prime 11 ∧ Nat.Prime 23 ∧ 11 ≠ 23 ∧ (ops 253 7 11 23).arch.opa.toNat = 11 * 23 ∧
    (ops 253 7 11 23).arch.opc.toNat = 11 ∧ (ops 253 7 11 23).arch.opd.toNat = 23 ∧
    ∃ k, exec .keygen (ops 253 7 11 23) = .next k ∧ k.arch.done = true :=
  ⟨by norm_num, by norm_num, by decide, by decide, by decide, by decide, _, rfl, rfl⟩

theorem witness_RoundTripFailsForEqualPrimes :
    (ops 9 3 3 3).arch.opa = 9 ∧ (ops 9 3 3 3).arch.opb = 3 ∧ (ops 9 3 3 3).arch.opc = 3 ∧
    (ops 9 3 3 3).arch.opd = 3 := by decide

/-- A failed command and an illegal word. -/
theorem witness_FailedCommandsLeaveNoPartialResult :
    (∃ t, step (writingCmd 2 (ops 5 0 0 0)) = .next t ∧ t.arch.err = true) ∧
    (∃ t, step (writingCmd 0x11 afterXgcd) = .next t ∧ t.arch.err = true) := ⟨⟨_, rfl, rfl⟩, ⟨_, rfl, rfl⟩⟩

theorem witness_EachCommandRaisesOnlyItsCauses :
    (∃ t, exec .modinv (ops 13 26 0 0) = .next t ∧ t.arch.cause = .notInvertible) ∧
    (∃ t, exec .enc (ops 66 0 0 0) = .next t ∧ t.arch.cause = .noKey) := ⟨⟨_, rfl, rfl⟩, ⟨_, rfl, rfl⟩⟩

/-- An operand write, a GCD, a MODINV, an XGCD and an illegal word, each changing a register of its clause. -/
theorem witness_RegistersChangeOnlyByTheirWriters :
    (∃ t, step (writing 0x08 5 afterXgcd) = .next t ∧ t.arch.opa ≠ afterXgcd.arch.opa) ∧
    (∃ t, step (writing 0x14 5 afterXgcd) = .next t ∧ t.arch.opd ≠ afterXgcd.arch.opd) ∧
    (∃ t, step (writingCmd 1 (ops 48 18 0 0)) = .next t ∧ t.arch.g ≠ (ops 48 18 0 0).arch.g) ∧
    (∃ t, step (writingCmd 3 (ops 3 7 0 0)) = .next t ∧ t.arch.r ≠ (ops 3 7 0 0).arch.r) ∧
    (∃ t, step (writingCmd 2 (ops 7 220 0 0)) = .next t ∧ t.arch.x ≠ (ops 7 220 0 0).arch.x) ∧
    (∃ t, step (writingCmd 9 afterXgcd) = .next t ∧ t.arch.cause ≠ afterXgcd.arch.cause) ∧
    ¬ HeadIs .reset (writing 0x08 5 afterXgcd) :=
  ⟨⟨_, rfl, by decide⟩, ⟨_, rfl, by decide⟩, ⟨_, rfl, by decide⟩, ⟨_, rfl, by decide⟩, ⟨_, rfl, by decide⟩,
    ⟨_, rfl, by decide⟩, by unfold HeadIs; decide⟩

/-- A KEYCLR that empties the slot, a KEYGEN that succeeds and one that fails with a key held. -/
theorem witness_KeySlotLivesUntilKeygenKeyclrOrReset :
    (∃ t, step (writingCmd 8 afterXgcd) = .next t ∧ t.arch.kd ≠ afterXgcd.arch.kd) ∧
    (HeadIs (commandEvent 5) (writingCmd 5 (ops 253 7 11 23)) ∧
      ∃ t, step (writingCmd 5 (ops 253 7 11 23)) = .next t ∧ t.arch.done = true) ∧
    (HeadIs (commandEvent 5) (writingCmd 5 (keyed 253 7 63 253)) ∧
      ∃ t, step (writingCmd 5 (keyed 253 7 63 253)) = .next t ∧ t.arch.done = false) :=
  ⟨⟨_, rfl, by decide⟩, ⟨rfl, _, rfl, rfl⟩, ⟨rfl, _, rfl, rfl⟩⟩

/-- Two states that agree on the registers each command reads and differ in others. -/
theorem witness_OutcomesDependOnlyOnTheRegistersRead :
    ((ops 7 220 11 23).arch.opa = (ops 7 220 5 5).arch.opa ∧ (ops 7 220 11 23).arch.opb = (ops 7 220 5 5).arch.opb) ∧
    (ops 7 220 11 23).arch.opc = (ops 7 220 11 5).arch.opc ∧
    (ops 7 220 11 23).arch.opd = (afterXgcd).arch.opd ∧
    ((keyed 253 7 63 66).arch.kn = (keyed 253 7 5 66).arch.kn ∧
      (keyed 253 7 63 66).arch.ke = (keyed 253 7 5 66).arch.ke ∧
      (keyed 253 7 63 66).arch.kvalid = (keyed 253 7 5 66).arch.kvalid) ∧
    (keyed 253 7 63 66).arch.kd = (keyed 253 9 63 66).arch.kd := by decide

theorem witness_ResetClearsEveryRegister :
    (awaiting [.reset, commandEvent 1] afterXgcd).host.pending = .reset :: [commandEvent 1] ∧
    (0x00 % 4 = 0 ∧ 0x00 ≤ 0x3C) ∧ (0x3C % 4 = 0 ∧ 0x3C ≤ 0x3C) := by decide

/-- The reset state, and a state that an illegal word has left after reset. -/
theorem witness_CommandsAtResetReportTheirErrors :
    (∀ a ∈ [Arch.reset, flagError .illegalCmd (setLastop 9 Arch.reset)],
      a.opa = 0 ∧ a.opb = 0 ∧ a.opc = 0 ∧ a.opd = 0 ∧ a.kvalid = false) ∧
    flagError .illegalCmd (setLastop 9 Arch.reset) ≠ Arch.reset ∧
    (Instr.dec, Cause.noKey) ∈ [(Instr.enc, Cause.noKey), (.dec, .noKey)] := by decide

/-- A state that is not the reset state meets the invariant, with a key held and a negative coefficient in Y; and a step
leaves it. -/
theorem witness_EveryStepKeepsTheInvariant :
    StateInv (awaiting [commandEvent 4] afterXgcd) ∧ ∃ t, step (awaiting [commandEvent 4] afterXgcd) = .next t := by
  refine ⟨⟨by decide, by decide, fun h => absurd h (by decide), by decide, by decide, by decide, fun _ => ⟨11, 23, by decide⟩, ?_, ?_⟩, _, rfl⟩ <;>
    · unfold InCoefficientRange; decide

end Sys2Proof.Tests
end

/-! The key slot over one step (rule R32) and what reset leaves (rule R38). -/

namespace Sys2Proof.Machine

/-! ### The word of a command -/

@[simp] theorem decode_encode (i : Instr) : decode (encode i) = .ok i := by cases i <;> rfl

/-- A word is its two fields put together (rule R72). -/
theorem zeroField_append_opc4 (v : Word) : zeroField v ++ opc4 v = v := by
  have hlt : v.toNat < 2 ^ 28 * 2 ^ 4 := v.isLt
  apply BitVec.eq_of_toNat_eq
  rw [BitVec.toNat_append, zeroField, opc4, BitVec.extractLsb'_toNat, BitVec.extractLsb'_toNat,
    ← Nat.shiftLeft_add_eq_or_of_lt (Nat.mod_lt _ (by norm_num)), Nat.shiftLeft_eq, Nat.shiftRight_eq_div_pow]
  simp only [Nat.shiftRight_zero]
  omega

/-- Among the words whose field ZERO is zero, only a command's own word selects it. -/
theorem append_eq_encode_of_decode (i : Instr) :
    ∀ op : BitVec 4, decode (0#28 ++ op) = .ok i → 0#28 ++ op = encode i := by
  cases i <;> decide

/-- Only a command's own word selects it (rule R74). -/
theorem eq_encode_of_decode {v : Word} {i : Instr} (h : decode v = .ok i) : v = encode i := by
  have hz : zeroField v = 0 := by
    by_contra hne
    rw [decode, if_pos hne] at h
    cases h
  have hv : v = 0#28 ++ opc4 v := by
    calc v = zeroField v ++ opc4 v := (zeroField_append_opc4 v).symm
      _ = 0#28 ++ opc4 v := by rw [hz]; rfl
  rw [hv] at h ⊢
  exact append_eq_encode_of_decode i _ h

/-! ### The key slot through commands -/

/-- The registers of the key slot hold the same in both states (rules R30, R31). -/
def SameKeySlot (a b : Arch) : Prop := b.kn = a.kn ∧ b.ke = a.ke ∧ b.kd = a.kd ∧ b.kvalid = a.kvalid

theorem SameKeySlot.refl (a : Arch) : SameKeySlot a a := ⟨rfl, rfl, rfl, rfl⟩

/-- Error entry leaves the key slot (rule R187). -/
theorem raise_sameKeySlot {c : Cause} {s t : State} (h : raise c s = .next t) : SameKeySlot s.arch t.arch := by
  rw [raise_eq_next] at h
  subst h
  exact .refl _

/-- An operand write, or an ignored one, leaves the key slot (rule R51). -/
theorem storeReg_sameKeySlot (a : Arch) (v : Word) (reg : Reg) : SameKeySlot a (storeReg a v reg) := by
  cases reg <;> exact .refl _

/-- No command other than KEYGEN and KEYCLR touches the key slot (rule R24). -/
theorem exec_sameKeySlot {i : Instr} {s t : State} (hgen : i ≠ .keygen) (hclr : i ≠ .keyclr)
    (h : exec i s = .next t) : SameKeySlot s.arch t.arch := by
  obtain ⟨c, -, hr⟩ | ⟨a, hc, hw⟩ := exec_cases i s
  · exact raise_sameKeySlot (hr ▸ h)
  · obtain rfl := complete_eq_next.1 (hc ▸ h)
    have ha : SameKeySlot s.arch a := by
      cases i with
      | keygen => exact absurd rfl hgen
      | keyclr => exact absurd rfl hclr
      | gcd | xgcd | modinv | modexp | enc | dec => rw [hw]; exact .refl _
    exact ha

/-- The key slot in `b` is the one that KEYGEN derives from the operands in `a` (rule R146). -/
structure DerivedKeySlot (a b : Arch) : Prop where
  kn : b.kn = a.opa
  ke : b.ke = a.opb
  kvalid : b.kvalid = true
  kd_lt : b.kd.toNat < (a.opc.toNat - 1) * (a.opd.toNat - 1)
  kd_inverse : a.opb.toNat * b.kd.toNat % ((a.opc.toNat - 1) * (a.opd.toNat - 1)) =
    1 % ((a.opc.toNat - 1) * (a.opd.toNat - 1))

/-- KEYGEN fails and leaves the slot, or succeeds and replaces the whole of it (rules R32, R146). -/
theorem execKeygen_keySlot {s t : State} (h : execKeygen s = .next t) :
    (t.arch.done = false ∧ SameKeySlot s.arch t.arch) ∨ (t.arch.done = true ∧ DerivedKeySlot s.arch t.arch) := by
  have failed {c : Cause} (hr : raise c s = .next t) : t.arch.done = false ∧ SameKeySlot s.arch t.arch :=
    ⟨by rw [raise_eq_next.1 hr]; rfl, raise_sameKeySlot hr⟩
  simp only [execKeygen] at h
  split at h
  · exact .inl (failed h)
  split at h
  · exact .inl (failed h)
  rename_i hphi
  rw [formPhi_phi, Nat.not_le] at hphi
  rw [formPhi_phi] at h
  obtain ⟨-, hu⟩ | ⟨-, -, hu⟩ | ⟨-, -, d, hu, hlt, hinv⟩ := inverseUnit_cases (operandB s) _ s.work.euclid hphi <;>
    simp only [hu] at h
  · exact .inl (failed h)
  · exact .inl (failed h)
  · right
    obtain rfl := complete_eq_next.1 h
    have hd : (wordOf d).toNat = d := wordOf_toNat (hlt.trans hphi)
    refine ⟨rfl, rfl, rfl, rfl, hd.trans_lt hlt, ?_⟩
    simpa [hd, operandB, operandC, operandD] using hinv

/-- A CMD write changes the key slot only as KEYCLR or as a KEYGEN that succeeds (rule R32). -/
theorem cmdWrite_keySlot {v : Word} {s t : State} (h : cmdWrite v s = .next t) :
    SameKeySlot s.arch t.arch ∨ v = encode .keyclr ∨ (v = encode .keygen ∧ t.arch.done = true) := by
  obtain ⟨-, -, hr⟩ | ⟨i, hdec, hx⟩ := cmdWrite_cases v s
  · exact .inl (raise_sameKeySlot (s := latchLastop v s) (hr ▸ h))
  · have hv := eq_encode_of_decode hdec
    rw [hx] at h
    by_cases hclr : i = .keyclr
    · exact .inr (.inl (hclr ▸ hv))
    by_cases hgen : i = .keygen
    · subst hgen
      obtain ⟨-, hsame⟩ | ⟨hdone, -⟩ := execKeygen_keySlot h
      · exact .inl hsame
      · exact .inr (.inr ⟨hv, hdone⟩)
    · exact .inl (exec_sameKeySlot (s := latchLastop v s) hgen hclr h)

/-! ### The key slot through one step -/

theorem headIs_of_pending {s : State} {e : HostEvent} {rest : List HostEvent} (h : s.host.pending = e :: rest) :
    HeadIs e s := by
  simp [HeadIs, h]

/-- One step changes the key slot only as a reset, a KEYCLR or a KEYGEN that succeeds (rule R32). -/
theorem step_keySlot {s t : State} (h : step s = .next t) :
    SameKeySlot s.arch t.arch ∨ HeadIs .reset s ∨ HeadIs (commandEvent (encode .keyclr)) s ∨
      (HeadIs (commandEvent (encode .keygen)) s ∧ t.arch.done = true) := by
  obtain ⟨-, rfl⟩ | ⟨rest, hp, -⟩ | ⟨reg, rest, -, rfl⟩ | ⟨reg, v, rest, -, -, rfl⟩ | ⟨v, rest, hp, hw⟩ := step_cases h
  · exact .inl (.refl _)
  · exact .inr (.inl (headIs_of_pending hp))
  · exact .inl (.refl _)
  · exact .inl (storeReg_sameKeySlot _ _ _)
  · obtain hsame | rfl | ⟨rfl, hdone⟩ := cmdWrite_keySlot hw
    · exact .inl hsame
    · exact .inr (.inr (.inl (headIs_of_pending hp)))
    · exact .inr (.inr (.inr ⟨headIs_of_pending hp, hdone⟩))

/-- The step that performs a KEYGEN write: it fails and leaves the slot, or succeeds and replaces the whole of it. -/
theorem step_keygen_keySlot {s t : State} (hhead : HeadIs (commandEvent (encode .keygen)) s) (h : step s = .next t) :
    (t.arch.done = false ∧ SameKeySlot s.arch t.arch) ∨ (t.arch.done = true ∧ DerivedKeySlot s.arch t.arch) := by
  obtain ⟨rest, hp⟩ := List.head?_eq_some_iff.1 hhead
  rw [step_of_pending hp, hostEvent_command, cmdWrite, decode_encode] at h
  obtain ⟨hdone, hsame⟩ | ⟨hdone, hslot⟩ := execKeygen_keySlot h
  · exact .inl ⟨hdone, hsame⟩
  · exact .inr ⟨hdone, hslot.kn, hslot.ke, hslot.kvalid, hslot.kd_lt, hslot.kd_inverse⟩

/-- Settles O41: the slot's changes are those of `step_keySlot`, and a KEYGEN's two outcomes those of
`step_keygen_keySlot`. -/
theorem keySlotLivesUntilKeygenKeyclrOrReset : Obligations.KeySlotLivesUntilKeygenKeyclrOrReset := by
  intro s t h
  refine ⟨fun hchanged => ?_, fun hhead hdone => ?_, fun hhead hfailed => ?_⟩
  · refine (step_keySlot h).resolve_left ?_
    rintro ⟨hkn, hke, hkd, hkv⟩
    simp [hkn, hke, hkd, hkv] at hchanged
  · obtain ⟨hfailed, -⟩ | ⟨-, hslot⟩ := step_keygen_keySlot hhead h
    · simp [hdone] at hfailed
    · exact ⟨hslot.kn, hslot.ke, hslot.kvalid, hslot.kd_lt, hslot.kd_inverse⟩
  · obtain ⟨-, hsame⟩ | ⟨hdone, -⟩ := step_keygen_keySlot hhead h
    · exact hsame
    · simp [hfailed] at hdone

/-! ### Reset -/

/-- Every word of the register map reads 0 after reset (rule R38). -/
@[simp] theorem regWord_reset (reg : Reg) : regWord Arch.reset reg = 0 := by cases reg <;> rfl

/-- Every aligned offset of the block is that of a register (rule R70). -/
theorem exists_offset_eq {offset : Nat} (halign : offset % 4 = 0) (hle : offset ≤ 0x3C) :
    ∃ reg : Reg, offset = reg.offset := by
  obtain ⟨reg, -, hoff⟩ := resolveAccess_of_wf (a := { kind := .read, offset := offset, bytes := 4 })
    (by simp [HostAccess.wf, HostAccess.wordWide, HostAccess.aligned, HostAccess.inBlock, halign]; omega)
  exact ⟨reg, hoff⟩

/-- Settles O44: reset by the reset transition's equations, the reads by `regWord_reset` at the register of each offset. -/
theorem resetClearsEveryRegister : Obligations.ResetClearsEveryRegister := by
  refine ⟨rfl, fun s rest hp => ⟨resetInput (taking rest s), step_of_pending hp, rfl, rfl, rfl⟩, ?_⟩
  intro s offset hreset halign hle
  obtain ⟨reg, rfl⟩ := exists_offset_eq halign hle
  have hzero : regWord s.arch reg = 0 := hreset ▸ regWord_reset reg
  rw [reading, step_withEvent, hostEvent_read, hzero]
  rfl

end Sys2Proof.Machine

/-! The register map as the host reads it (rules R50, R70) and writes it (rules R51, R81). -/

namespace Sys2Proof.Machine

/-! ### Reads -/

/-- The low half as rule R52 writes it, a remainder. -/
theorem ofNat_toNat_mod_eq_loWord (d : DWord) : BitVec.ofNat 32 (d.toNat % 2 ^ 32) = loWord d := by
  rw [← loWord_toNat, BitVec.ofNat_toNat, BitVec.setWidth_eq]

/-- The high half as rule R52 writes it, a quotient. -/
theorem ofNat_toNat_div_eq_hiWord (d : DWord) : BitVec.ofNat 32 (d.toNat / 2 ^ 32) = hiWord d := by
  rw [← hiWord_toNat, BitVec.ofNat_toNat, BitVec.setWidth_eq]

/-- The step that reads a register returns its word and does nothing else (rule R50). -/
theorem step_reading (reg : Reg) (s : State) :
    step (reading reg.offset s) = .next (returnWord (regWord s.arch reg) s) := by
  rw [reading, step_withEvent, hostEvent_read]

/-- The sixteen words of the register map, in the order of their offsets (rule R70). -/
def registers : List Reg :=
  [.cmd, .status, .opa, .opb, .opc, .opd, .g, .r, .xLo, .xHi, .yLo, .yHi, .kn, .ke, .kd, .reserved]

/-- What the host reads at each offset of the map (rules R50, R70). -/
def readMap (a : Arch) : List (Nat × Word) := registers.map fun reg => (reg.offset, regWord a reg)

/-- A step that reads an offset of the map returns the word that the map has there. -/
theorem step_reading_of_mem_readMap {s : State} {offset : Nat} {w : Word} (h : (offset, w) ∈ readMap s.arch) :
    step (reading offset s) = .next (returnWord w s) := by
  obtain ⟨reg, -, heq⟩ := List.mem_map.1 h
  obtain ⟨rfl, rfl⟩ := Prod.mk.inj heq
  exact step_reading reg s

/-- Settles O6: its list is `readMap`, once the halves of X and Y are named. -/
theorem readsReturnTheMapAndChangeNothing : Obligations.ReadsReturnTheMapAndChangeNothing := by
  intro s offset w h
  simp only [ofNat_toNat_mod_eq_loWord, ofNat_toNat_div_eq_hiWord] at h
  have hmap : (offset, w) ∈ readMap s.arch := h
  exact step_reading_of_mem_readMap hmap

/-! ### Writes -/

/-- The step that writes a register other than CMD does nothing but store the word (rule R51). -/
theorem step_writing {reg : Reg} (hreg : reg ≠ .cmd) (v : Word) (s : State) :
    step (writing reg.offset v s) = .next { s with arch := storeReg s.arch v reg } := by
  rw [writing, step_withEvent, hostEvent_write, regWrite, if_neg hreg]

/-- The step that writes CMD is the CMD write (rule R51). -/
theorem step_writingCmd (v : Word) (s : State) : step (writingCmd v s) = cmdWrite v s := by
  rw [writingCmd, step_withEvent, hostEvent_command]

/-- The registers that a host write reaches (rule R51). -/
def hostWritable : List Reg := [.cmd, .opa, .opb, .opc, .opd]

/-- Every other register ignores the word (rule R81). -/
theorem storeReg_of_not_mem_hostWritable {reg : Reg} (h : reg ∉ hostWritable) (a : Arch) (v : Word) :
    storeReg a v reg = a := by
  cases reg with
  | opa | opb | opc | opd => simp [hostWritable] at h
  | _ => rfl

/-- The step that writes any other register changes nothing (rules R51, R81). -/
theorem step_writing_of_not_mem_hostWritable {reg : Reg} (h : reg ∉ hostWritable) (v : Word) (s : State) :
    step (writing reg.offset v s) = .next s := by
  have hcmd : reg ≠ .cmd := by
    rintro rfl
    simp [hostWritable] at h
  rw [step_writing hcmd, storeReg_of_not_mem_hostWritable h]

/-- Settles O8: `step_writing` at each operand register, `step_writingCmd`, and
`step_writing_of_not_mem_hostWritable` at the register of any other offset. -/
theorem writesReachOperandsAndCmdOnly : Obligations.WritesReachOperandsAndCmdOnly := by
  intro s v
  refine ⟨step_writing (reg := .opa) (by decide) v s, step_writing (reg := .opb) (by decide) v s,
    step_writing (reg := .opc) (by decide) v s, step_writing (reg := .opd) (by decide) v s, step_writingCmd v s, ?_⟩
  intro offset halign hle hother
  obtain ⟨reg, rfl⟩ := exists_offset_eq halign hle
  have hreg : reg ∉ hostWritable := fun hmem => hother (List.mem_map_of_mem (f := Reg.offset) hmem)
  exact step_writing_of_not_mem_hostWritable hreg v s

end Sys2Proof.Machine

/-! The command word, its decoder and the CMD write (rules R72, R74, R75, R82), the registers that the host cannot write
(rule R81) and the STATUS word (rule R73). -/

namespace Sys2Proof.Machine

/-! ### The decoder -/

/-- A word selects a command exactly when it is the command's word (rule R74). -/
theorem decode_eq_ok_iff {v : Word} {i : Instr} : decode v = .ok i ↔ v = encode i :=
  ⟨eq_encode_of_decode, fun h => h ▸ decode_encode i⟩

/-- Settles O2: every clause is `decode_eq_ok_iff` at a command, and the round trip is `decode_encode`. -/
theorem wordSelectsACommandExactlyWhenItIsItsWord : Obligations.WordSelectsACommandExactlyWhenItIsItsWord :=
  ⟨fun _ => ⟨decode_eq_ok_iff, decode_eq_ok_iff, decode_eq_ok_iff, decode_eq_ok_iff, decode_eq_ok_iff,
      decode_eq_ok_iff, decode_eq_ok_iff, decode_eq_ok_iff⟩,
    fun _ _ => decode_eq_ok_iff, fun i _ => decode_encode i⟩

/-! ### The test of a command word -/

/-- The test of rule R82, on the two fields of the word. -/
def PassesLegalityTest (v : Word) : Prop := zeroField v = 0 ∧ 1 ≤ (opc4 v).toNat ∧ (opc4 v).toNat ≤ 8

/-- Every command's own word passes the test. -/
theorem passesLegalityTest_encode (i : Instr) : PassesLegalityTest (encode i) := by
  cases i with
  | gcd => exact Laws.CommandFormat.gcd
  | xgcd => exact Laws.CommandFormat.xgcd
  | modinv => exact Laws.CommandFormat.modinv
  | modexp => exact Laws.CommandFormat.modexp
  | keygen => exact Laws.CommandFormat.keygen
  | enc => exact Laws.CommandFormat.enc
  | dec => exact Laws.CommandFormat.dec
  | keyclr => exact Laws.CommandFormat.keyclr

/-- A word that passes the test selects a command. -/
theorem exists_decode_eq_ok {v : Word} (h : PassesLegalityTest v) : ∃ i, decode v = .ok i := by
  obtain ⟨hzero, hge, hle⟩ := h
  interval_cases hop : (opc4 v).toNat <;> simp [decode, hzero, hop]

/-- A command's word is one of 1 to 8 (rule R74). -/
theorem encode_toNat_range (i : Instr) : 1 ≤ (encode i).toNat ∧ (encode i).toNat ≤ 8 := by cases i <;> decide

/-- OPC4 as a remainder. -/
theorem opc4_eq_ofNat (v : Word) : opc4 v = BitVec.ofNat 4 (v.toNat % 16) := by
  apply BitVec.eq_of_toNat_eq
  simp [opc4, BitVec.extractLsb'_toNat]

/-! ### The CMD write -/

/-- Error entry answers a next state with the error recorded and nothing else changed (rules R186, R187). -/
theorem raise_failedWith (c : Cause) (s : State) : ∃ t, raise c s = .next t ∧ FailedWith c s t :=
  ⟨endCommand (flagError c s.arch) s, rfl, rfl, rfl⟩

/-- The CMD write of a word that is no command's latches LASTOP and raises ILLEGAL_CMD (rule R75). -/
theorem step_writingCmd_illegal {v : Word} (h : ∀ i, v ≠ encode i) (s : State) :
    ∃ t, step (writingCmd v s) = .next t ∧ FailedWith .illegalCmd (latchLastop v s) t := by
  rw [step_writingCmd]
  obtain ⟨-, -, hraise⟩ | ⟨i, hdec, -⟩ := cmdWrite_cases v s
  · rw [hraise]
    exact raise_failedWith .illegalCmd (latchLastop v s)
  · exact absurd (eq_encode_of_decode hdec) (h i)

/-- The CMD write of a command's word latches LASTOP and runs the command (rule R82). -/
theorem step_writingCmd_encode (i : Instr) (s : State) :
    step (writingCmd (encode i) s) = exec i (latchLastop (encode i) s) := by
  rw [step_writingCmd, cmdWrite, decode_encode]

/-- Settles O3: no command's word is 0 or above 8, so the write is that of `step_writingCmd_illegal`. -/
theorem illegalWordsReportIllegalCmdAndRunNothing : Obligations.IllegalWordsReportIllegalCmdAndRunNothing := by
  intro s v hv
  have hillegal : ∀ i, v ≠ encode i := by
    rintro i rfl
    have hrange := encode_toNat_range i
    obtain hzero | hlarge := hv
    · simp [hzero] at hrange
    · omega
  obtain ⟨t, hstep, harch, hhost⟩ := step_writingCmd_illegal hillegal s
  refine ⟨t, hstep, ?_, hhost⟩
  rw [harch, latchLastop_arch, opc4_eq_ofNat]
  rfl

/-- Settles O4: a word that fails the test is no command's (`passesLegalityTest_encode`), and one that passes it is
(`exists_decode_eq_ok`). -/
theorem cmdWriteLatchesLastopThenTestsThenRuns : Obligations.CmdWriteLatchesLastopThenTestsThenRuns := by
  rintro s latched v rfl
  refine ⟨fun hfails => ?_, fun hzero hge hle => ?_⟩
  · refine step_writingCmd_illegal ?_ s
    rintro i rfl
    obtain ⟨hzero, hge, hle⟩ := passesLegalityTest_encode i
    obtain hne | hop | hop := hfails
    · exact hne hzero
    · exact absurd hop (Nat.ne_of_gt hge)
    · exact absurd hop (Nat.not_lt.2 hle)
  · obtain ⟨i, hdec⟩ := exists_decode_eq_ok (v := v) ⟨hzero, hge, hle⟩
    obtain rfl := eq_encode_of_decode hdec
    exact ⟨i, rfl, step_writingCmd_encode i s⟩

/-! ### Registers that the host cannot write, and ports that read 0 -/

/-- Settles O9: its offsets are those of the registers that are not `hostWritable`, and the two reads are
`step_reading`. -/
theorem readOnlyRegistersIgnoreWritesAndPortsReadZero :
    Obligations.ReadOnlyRegistersIgnoreWritesAndPortsReadZero := by
  refine ⟨fun s v offset h => ?_, fun s offset h => ?_⟩
  · have hmap : offset ∈ (registers.filter (· ∉ hostWritable)).map Reg.offset := h
    obtain ⟨reg, hmem, rfl⟩ := List.mem_map.1 hmap
    have hreg : reg ∉ hostWritable := by simpa using (List.mem_filter.1 hmem).2
    exact step_writing_of_not_mem_hostWritable hreg v s
  · obtain rfl | rfl := h
    · exact step_reading .cmd s
    · exact step_reading .reserved s

/-! ### The STATUS word -/

/-- Appending puts the left vector above the right one. -/
theorem toNat_append_eq_add {m n : Nat} (x : BitVec m) (y : BitVec n) :
    (x ++ y).toNat = 2 ^ n * x.toNat + y.toNat := by
  rw [BitVec.toNat_append, ← Nat.shiftLeft_add_eq_or_of_lt y.isLt, Nat.shiftLeft_eq, Nat.mul_comm]

/-- The formula of rule R73. -/
theorem statusWord_toNat (a : Arch) : (statusWord a).toNat =
    a.done.toNat + 2 * a.err.toNat + 4 * a.kvalid.toNat + 16 * a.cause.code.toNat + 256 * a.lastop.toNat := by
  simp only [statusWord, toNat_append_eq_add, BitVec.toNat_ofBool, BitVec.toNat_ofNat]
  omega

/-- Codes 7 to 15 are never produced (rule R181). -/
theorem Cause.code_toNat_le (c : Cause) : c.code.toNat ≤ 6 := by cases c <;> decide

/-- Settles O7: `statusWord_toNat`, the table of codes by evaluation, and `Cause.code_toNat_le`. -/
theorem statusWordIsItsFormula : Obligations.StatusWordIsItsFormula :=
  ⟨statusWord_toNat, rfl, rfl, rfl, rfl, rfl, rfl, rfl, Cause.code_toNat_le⟩

end Sys2Proof.Machine

/-! GCD, XGCD and MODINV: their results, flags and frames (rules R103, R108 to R111, R113, R114). -/

namespace Sys2Proof.Machine

/-! ### A command and the CMD write of its word (rule R82) -/

/-- The outcome with LASTOP as the decode of the command word `v` leaves it. -/
def latchResult (v : Word) : Result → Result
  | .next t => .next (latchLastop v t)
  | .fault why => .fault why
  | .refused why => .refused why

theorem keyPower_latchLastop (e v : Word) (s : State) :
    keyPower e (latchLastop v s) = latchResult v (keyPower e s) := by
  simp only [keyPower, apply_ite (latchResult v)]
  refine if_congr .rfl rfl ?_
  simp only [operandA_latchLastop, latchLastop_arch, latchLastop_work, setLastop_kn]
  split <;> rfl

/-- No command reads LASTOP: with another value in it the same happens, and the value stays. -/
theorem exec_latchLastop (i : Instr) (v : Word) (s : State) :
    exec i (latchLastop v s) = latchResult v (exec i s) := by
  cases i with
  | gcd =>
    simp only [exec, execGcd, apply_ite (latchResult v)]
    exact if_congr .rfl rfl rfl
  | xgcd =>
    simp only [exec, execXgcd, apply_ite (latchResult v)]
    exact if_congr .rfl rfl rfl
  | modinv =>
    simp only [exec, execModinv, operandA_latchLastop, operandB_latchLastop, latchLastop_work]
    split <;> rfl
  | modexp =>
    simp only [exec, execModexp, operandA_latchLastop, operandB_latchLastop, operandC_latchLastop, latchLastop_work]
    split <;> rfl
  | keygen =>
    simp only [exec, execKeygen, apply_ite (latchResult v)]
    refine if_congr .rfl rfl (if_congr .rfl rfl ?_)
    simp only [operandB_latchLastop, operandC_latchLastop, operandD_latchLastop, latchLastop_work]
    split <;> rfl
  | enc | dec => exact keyPower_latchLastop _ v s
  | keyclr => rfl

/-- What a command answers, the CMD write of its word answers with LASTOP = its opcode (rule R82). -/
theorem cmdWriteGives_of_exec {i : Instr} {s t : State} (h : exec i s = .next t) :
    CmdWriteGives (encode i) (opc4 (encode i)) s t :=
  ⟨latchLastop (encode i) t, by rw [step_writingCmd_encode, exec_latchLastop, h]; rfl, rfl, rfl⟩

/-- A command that raises `c` fails with it, and so does the CMD write of its word. -/
theorem exec_failedWith {i : Instr} {c : Cause} {s : State} (h : exec i s = raise c s) :
    ∃ t, exec i s = .next t ∧ FailedWith c s t ∧ CmdWriteGives (encode i) (opc4 (encode i)) s t := by
  obtain ⟨t, hraise, hfailed⟩ := raise_failedWith c s
  exact ⟨t, h.trans hraise, hfailed, cmdWriteGives_of_exec (h.trans hraise)⟩

/-! ### GCD (rules R108, R109) -/

theorem toNat_pos_of_ne_zero {v : Word} (h : v ≠ 0) : 0 < v.toNat :=
  Nat.pos_of_ne_zero fun hzero => h (BitVec.eq_of_toNat_eq hzero)

theorem wordOf_gcd_toNat {a b : Word} (hb : b ≠ 0) :
    (wordOf (Nat.gcd a.toNat b.toNat)).toNat = Nat.gcd a.toNat b.toNat :=
  wordOf_toNat ((Nat.gcd_le_right _ (toNat_pos_of_ne_zero hb)).trans_lt b.isLt)

theorem execGcd_of_zero {s : State} (hb : s.arch.opb = 0) : exec .gcd s = raise .divByZero s :=
  if_pos (congrArg BitVec.toNat hb)

theorem execGcd_of_ne_zero {s : State} (hb : s.arch.opb ≠ 0) :
    exec .gcd s = complete { s.arch with g := wordOf (Nat.gcd s.arch.opa.toNat s.arch.opb.toNat) } s := by
  have hpos := toNat_pos_of_ne_zero hb
  rw [← gcdCore_r1 s.work.euclid hpos s.arch.opb.isLt]
  exact if_neg hpos.ne'

/-- The register that a successful GCD writes. -/
theorem execGcd_g {s t : State} (hb : s.arch.opb ≠ 0) (h : exec .gcd s = .next t) :
    t.arch.g = wordOf (Nat.gcd s.arch.opa.toNat s.arch.opb.toNat) := by
  rw [execGcd_of_ne_zero hb, complete_eq_next] at h
  rw [h]
  rfl

/-- Settles O16: the two equations of GCD, each with the CMD write of its word. -/
theorem gcdWritesTheGreatestCommonDivisor : Obligations.GcdWritesTheGreatestCommonDivisor := by
  refine fun s => ⟨fun hb => ?_, fun hb => exec_failedWith (execGcd_of_zero hb)⟩
  have h := execGcd_of_ne_zero hb
  exact ⟨_, h, rfl, wordOf_gcd_toNat hb, rfl, cmdWriteGives_of_exec h⟩

/-- Settles O17: properties of the library's gcd, read in the register by `execGcd_g`. -/
theorem gcdResultDividesBothAndIsSymmetricOffZero : Obligations.GcdResultDividesBothAndIsSymmetricOffZero := by
  refine ⟨fun s t hb h => ?_, fun s s' t t' ha hb hopa hopb h h' => ?_, fun s t _ hopb h => ?_,
    fun s t hopa hopb h => ?_⟩
  · have hpos := toNat_pos_of_ne_zero hb
    rw [execGcd_g hb h, wordOf_gcd_toNat hb]
    exact ⟨rfl, Nat.gcd_pos_of_pos_right _ hpos, Nat.gcd_le_right _ hpos, Nat.gcd_dvd_left _ _, Nat.gcd_dvd_right _ _⟩
  · rw [execGcd_g hb h, execGcd_g (hopb ▸ ha) h', hopa, hopb, Nat.gcd_comm]
  · rw [execGcd_of_zero hopb, raise_eq_next] at h
    rw [h]
    rfl
  · have hb : s.arch.opb ≠ 0 := by rw [hopb]; decide
    rw [execGcd_of_ne_zero hb, hopa, hopb, complete_eq_next] at h
    rw [h]
    exact ⟨rfl, rfl⟩

/-! ### XGCD (rules R110, R111) -/

theorem execXgcd_of_zero {s : State} (hb : s.arch.opb = 0) : exec .xgcd s = raise .divByZero s :=
  if_pos (congrArg BitVec.toNat hb)

/-- The architectural state whose G, X and Y are the results of `xgcd_core` (rule R110), the flags apart. -/
def xgcdArch (s : State) : Arch :=
  { s.arch with
    g := wordOf (Nat.gcd s.arch.opa.toNat s.arch.opb.toNat)
    x := tc64 (xgcdCore s.arch.opa.toNat s.arch.opb.toNat s.work.euclid).s1
    y := tc64 (xgcdCore s.arch.opa.toNat s.arch.opb.toNat s.work.euclid).t1 }

theorem execXgcd_of_ne_zero {s : State} (hb : s.arch.opb ≠ 0) : exec .xgcd s = complete (xgcdArch s) s := by
  have hpos := toNat_pos_of_ne_zero hb
  rw [xgcdArch, ← (xgcdCore_spec s.work.euclid hpos s.arch.opb.isLt).1]
  exact if_neg hpos.ne'

/-- A delivered coefficient fits its register: rule R106 bounds it far below `2^63`. -/
theorem tc64_toInt_of_bounded {z : Int} {n g : Nat} (hg : 0 < g) (hn : n < 2 ^ 32)
    (h : |z| ≤ ((max 1 (n / (2 * g)) : Nat) : Int)) : (tc64 z).toInt = z := by
  obtain ⟨hlo, hhi⟩ := abs_le.1 (pair_bound_range hg hn h)
  exact tc64_toInt (by omega) (by omega)

/-- The three registers hold what `xgcd_core(a, b)` leaves, whatever the working registers held before (rules R36,
R105). -/
structure HoldsXgcd (a b : Nat) (g : Word) (x y : DWord) : Prop where
  g : g.toNat = Nat.gcd a b
  x : ∀ w, x.toInt = (xgcdCore a b w).s1
  y : ∀ w, y.toInt = (xgcdCore a b w).t1

theorem xgcdArch_holdsXgcd {s : State} (hb : s.arch.opb ≠ 0) :
    HoldsXgcd s.arch.opa.toNat s.arch.opb.toNat (xgcdArch s).g (xgcdArch s).x (xgcdArch s).y := by
  have hpos := toNat_pos_of_ne_zero hb
  obtain ⟨-, -, hx, hy⟩ := xgcdCore_spec (a := s.arch.opa.toNat) s.work.euclid hpos s.arch.opb.isLt
  have hg := Nat.gcd_pos_of_pos_right s.arch.opa.toNat hpos
  refine ⟨wordOf_gcd_toNat hb, fun w => ?_, fun w => ?_⟩
  · rw [(xgcdCore_congr _ _ w s.work.euclid).2.1]
    exact tc64_toInt_of_bounded hg s.arch.opb.isLt hx
  · rw [(xgcdCore_congr _ _ w s.work.euclid).2.2]
    exact tc64_toInt_of_bounded hg s.arch.opa.isLt hy

/-- The registers that a successful XGCD writes. -/
theorem execXgcd_holdsXgcd {s t : State} (hb : s.arch.opb ≠ 0) (h : exec .xgcd s = .next t) :
    HoldsXgcd s.arch.opa.toNat s.arch.opb.toNat t.arch.g t.arch.x t.arch.y := by
  rw [execXgcd_of_ne_zero hb, complete_eq_next] at h
  rw [h]
  exact xgcdArch_holdsXgcd hb

theorem HoldsXgcd.bezout {a b : Nat} {g : Word} {x y : DWord} (h : HoldsXgcd a b g x y) (hb : 0 < b)
    (hlt : b < 2 ^ 32) : (a : Int) * x.toInt + b * y.toInt = g.toNat := by
  rw [h.g, h.x default, h.y default]
  exact (xgcdCore_spec default hb hlt).2.1

/-- Settles O18: the two equations of XGCD, each with the CMD write of its word. -/
theorem xgcdWritesTheGcdWithItsBezoutPair : Obligations.XgcdWritesTheGcdWithItsBezoutPair := by
  refine fun s => ⟨fun hb => ?_, fun hb => exec_failedWith (execXgcd_of_zero hb)⟩
  have hpos := toNat_pos_of_ne_zero hb
  have h := execXgcd_of_ne_zero hb
  have hregs := xgcdArch_holdsXgcd hb
  refine ⟨_, h, rfl, hregs.g, fun w => ⟨?_, hregs.x w, hregs.y w⟩, hregs.bezout hpos s.arch.opb.isLt, rfl,
    cmdWriteGives_of_exec h⟩
  exact hregs.g.trans (xgcdCore_spec w hpos s.arch.opb.isLt).1.symm

/-! ### XGCD of swapped operands (rule R111) -/

theorem xgcdLoop_succ_of_mod_eq_zero {w : EuclidRegs} (fuel : Nat) (h : w.r0 % w.r1 = 0) :
    xgcdLoop (fuel + 1) w = euclidDivide w := by
  rw [xgcdLoop, euclidDivide_r2, if_pos h]

theorem xgcdLoop_succ_of_mod_ne_zero {w : EuclidRegs} (fuel : Nat) (h : w.r0 % w.r1 ≠ 0) :
    xgcdLoop (fuel + 1) w = xgcdLoop fuel (euclidShift (euclidDivide w)) := by
  rw [xgcdLoop, euclidDivide_r2, if_neg h]

/-- When the second operand divides the first, `xgcd_core` delivers the seed row of the second (rule R112). -/
theorem xgcdCore_of_mod_eq_zero {a b : Nat} (w : EuclidRegs) (h : a % b = 0) :
    (xgcdCore a b w).s1 = 0 ∧ (xgcdCore a b w).t1 = 1 := by
  rw [xgcdCore, euclidPasses, xgcdLoop_succ_of_mod_eq_zero _ h]
  exact ⟨rfl, rfl⟩

/-- The rows with their two columns of coefficients exchanged. -/
def swapColumns (w : EuclidRegs) : EuclidRegs := { w with s0 := w.t0, t0 := w.s0, s1 := w.t1, t1 := w.s1 }

/-- The loop treats the two columns alike. -/
theorem xgcdLoop_swapColumns (fuel : Nat) (w : EuclidRegs) :
    xgcdLoop fuel (swapColumns w) = swapColumns (xgcdLoop fuel w) := by
  induction fuel generalizing w with
  | zero => rfl
  | succ fuel ih =>
    by_cases h : w.r0 % w.r1 = 0
    · rw [xgcdLoop_succ_of_mod_eq_zero fuel h]
      exact xgcdLoop_succ_of_mod_eq_zero fuel h
    · rw [xgcdLoop_succ_of_mod_ne_zero fuel h, ← ih]
      exact xgcdLoop_succ_of_mod_ne_zero fuel h

/-- A pass more leaves the coefficients of a remainder that already divides the one before. -/
theorem xgcdLoop_succ_of_exits (fuel : Nat) (w : EuclidRegs)
    (h : (xgcdLoop fuel w).r0 % (xgcdLoop fuel w).r1 = 0) :
    (xgcdLoop (fuel + 1) w).s1 = (xgcdLoop fuel w).s1 ∧ (xgcdLoop (fuel + 1) w).t1 = (xgcdLoop fuel w).t1 := by
  induction fuel generalizing w with
  | zero =>
    rw [xgcdLoop_succ_of_mod_eq_zero (w := w) 0 h]
    exact ⟨rfl, rfl⟩
  | succ fuel ih =>
    by_cases hmod : w.r0 % w.r1 = 0
    · rw [xgcdLoop_succ_of_mod_eq_zero _ hmod, xgcdLoop_succ_of_mod_eq_zero _ hmod]
      exact ⟨rfl, rfl⟩
    · rw [xgcdLoop_succ_of_mod_ne_zero _ hmod] at h
      rw [xgcdLoop_succ_of_mod_ne_zero _ hmod, xgcdLoop_succ_of_mod_ne_zero fuel hmod]
      exact ih _ h

/-- On a smaller first operand the first pass only exchanges the operands, and with them the columns. -/
theorem euclidShift_euclidDivide_seed_of_lt {a b : Nat} (w : EuclidRegs) (hab : a < b) :
    ∃ v, euclidShift (euclidDivide (xgcdSeed a b w)) = swapColumns (xgcdSeed b a v) :=
  ⟨{ w with q := 0, r2 := a },
    by simp [euclidShift, euclidDivide, xgcdSeed, swapColumns, Nat.div_eq_of_lt hab]⟩

/-- Exchanging the operands exchanges the pair: the pass that does it is not missed, since the loop exits within the
others (rule R111). -/
theorem xgcdCore_swap_of_lt {a b : Nat} (w : EuclidRegs) (ha : 0 < a) (hab : a < b) (hb : b < 2 ^ 32) :
    (xgcdCore b a w).s1 = (xgcdCore a b w).t1 ∧ (xgcdCore b a w).t1 = (xgcdCore a b w).s1 := by
  obtain ⟨v, hfirst⟩ := euclidShift_euclidDivide_seed_of_lt w hab
  have hmod : (xgcdSeed a b w).r0 % (xgcdSeed a b w).r1 ≠ 0 := (Nat.mod_eq_of_lt hab).trans_ne ha.ne'
  have hcore : xgcdCore a b w = swapColumns (xgcdLoop 63 (xgcdSeed b a v)) := by
    rw [← xgcdLoop_swapColumns, ← hfirst]
    exact xgcdLoop_succ_of_mod_ne_zero 63 hmod
  have hexits := xgcdCore_exits (a := a) w (ha.trans hab) hb
  rw [hcore] at hexits ⊢
  obtain ⟨hs, ht⟩ := xgcdLoop_succ_of_exits 63 (xgcdSeed b a v) hexits
  obtain ⟨-, hs', ht'⟩ := xgcdCore_congr b a w v
  exact ⟨hs'.trans hs, ht'.trans ht⟩

/-- `xgcd_core` of exchanged operands delivers the exchanged pair (rule R111). -/
theorem xgcdCore_swap {a b : Nat} (w : EuclidRegs) (ha : 0 < a) (hb : 0 < b) (hne : a ≠ b) (halt : a < 2 ^ 32)
    (hblt : b < 2 ^ 32) : (xgcdCore b a w).s1 = (xgcdCore a b w).t1 ∧ (xgcdCore b a w).t1 = (xgcdCore a b w).s1 := by
  obtain hab | hba := lt_or_gt_of_ne hne
  · exact xgcdCore_swap_of_lt w ha hab hblt
  · obtain ⟨hs, ht⟩ := xgcdCore_swap_of_lt w hb hba halt
    exact ⟨ht.symm, hs.symm⟩

/-- XGCD of exchanged operands delivers the same G and the exchanged pair. -/
theorem HoldsXgcd.swap {a b : Nat} {g g' : Word} {x x' y y' : DWord} (h : HoldsXgcd a b g x y)
    (h' : HoldsXgcd b a g' x' y') (ha : 0 < a) (hb : 0 < b) (hne : a ≠ b) (halt : a < 2 ^ 32) (hblt : b < 2 ^ 32) :
    g' = g ∧ x' = y ∧ y' = x := by
  obtain ⟨hs, ht⟩ := xgcdCore_swap default ha hb hne halt hblt
  refine ⟨BitVec.eq_of_toNat_eq ?_, BitVec.eq_of_toInt_eq ?_, BitVec.eq_of_toInt_eq ?_⟩
  · rw [h.g, h'.g, Nat.gcd_comm]
  · rw [h'.x default, h.y default, hs]
  · rw [h'.y default, h.x default, ht]

/-- XGCD of equal operands delivers the seed row of the second (rule R111). -/
theorem HoldsXgcd.pair_of_eq {a : Nat} {g : Word} {x y : DWord} (h : HoldsXgcd a a g x y) :
    x.toInt = 0 ∧ y.toInt = 1 := by
  rw [h.x default, h.y default]
  exact xgcdCore_of_mod_eq_zero default (Nat.mod_self a)

/-- Settles O20: each property is one of the registers that `HoldsXgcd` describes. -/
theorem xgcdIsBezoutAgreesWithGcdAndSwaps : Obligations.XgcdIsBezoutAgreesWithGcdAndSwaps := by
  refine ⟨fun s t u hb h hgcd => ?_, fun s s' t t' ha hb hopa hopb h h' => ?_⟩
  · have hregs := execXgcd_holdsXgcd hb h
    refine ⟨hregs.bezout (toNat_pos_of_ne_zero hb) s.arch.opb.isLt, BitVec.eq_of_toNat_eq ?_, hregs.x _, hregs.y _⟩
    rw [hregs.g, execGcd_g hb hgcd, wordOf_gcd_toNat hb]
  · have hregs := execXgcd_holdsXgcd hb h
    have hregs' := execXgcd_holdsXgcd (hopb ▸ ha) h'
    rw [hopa, hopb] at hregs'
    refine ⟨fun hne => ?_, fun heq => ?_⟩
    · exact hregs.swap hregs' (toNat_pos_of_ne_zero ha) (toNat_pos_of_ne_zero hb) (BitVec.toNat_ne.1 hne)
        s.arch.opa.isLt s.arch.opb.isLt
    · rw [heq] at hregs hregs'
      obtain ⟨hx, hy⟩ := hregs.pair_of_eq
      exact ⟨hx, hy, hregs'.pair_of_eq⟩

/-! ### The residue (rule R103) -/

/-- Whatever the inner `mod` answers, if it is congruent to `x` the source's formula is the residue of `x`, its outer
`mod` being the Euclidean one. -/
theorem residue_eq_add_emod {x r : Int} {m : Nat} (hm : 1 ≤ m) (h : (m : Int) ∣ x - r) :
    (residue x m : Int) = (r + m) % m := by
  rw [residue_cast x hm, Int.add_emod_right]
  exact (Int.modEq_iff_dvd.2 h).symm

/-- Settles O24: under either meaning the inner `mod` is congruent to `x` and lies above `-m`, so that the outer `mod`
is the Euclidean one. -/
theorem residueIsTheSourcesFormula : Obligations.ResidueIsTheSourcesFormula := by
  intro x m hm
  have hpos : (0 : Int) < m := by exact_mod_cast hm
  refine ⟨?_, ?_, residue_lt x hm, ?_⟩
  · have habove := Int.lt_tmod_of_pos x hpos
    rw [Int.tmod_eq_emod_of_nonneg (by omega : 0 ≤ x.tmod m + m)]
    exact residue_eq_add_emod hm Int.dvd_self_sub_tmod
  · rw [Int.fmod_eq_emod_of_nonneg (x.fmod m + m) hpos.le]
    exact residue_eq_add_emod hm Int.dvd_self_sub_fmod
  · rw [residue_cast x hm]
    exact Int.dvd_self_sub_emod

/-! ### MODINV (rules R113, R114) -/

/-- What the inverse unit answers is the residue of the coefficient of `xgcd_core` (rule R113). -/
theorem eq_residue_of_inverseUnit {num m r : Nat} {w : EuclidRegs} (h : inverseUnit num m w = .ok r) :
    r = residue (xgcdCore num m w).s1 m := by
  rw [inverseUnit] at h
  split at h
  · cases h
  split at h
  · cases h
  · exact (Except.ok.inj h).symm

/-- `r` is the inverse of `num` modulo `m` that MODINV delivers, whatever the working registers held before. -/
structure IsModinv (num m : Nat) (r : Word) : Prop where
  lt : r.toNat < m
  inverse : num * r.toNat % m = 1 % m
  core : ∀ w, (r.toNat : Int) = (xgcdCore num m w).s1 % m

theorem wordOf_isModinv {num m r : Nat} {w : EuclidRegs} (hm : m < 2 ^ 32) (h : inverseUnit num m w = .ok r)
    (hlt : r < m) (hinv : num * r % m = 1 % m) : IsModinv num m (wordOf r) := by
  have hr : (wordOf r).toNat = r := wordOf_toNat (hlt.trans hm)
  refine ⟨hr.trans_lt hlt, hr.symm ▸ hinv, fun v => ?_⟩
  rw [hr, eq_residue_of_inverseUnit h, (xgcdCore_congr num m w v).2.1, residue_cast _ (Nat.zero_lt_of_lt hlt)]

theorem execModinv_of_error {s : State} {c : Cause}
    (hu : inverseUnit s.arch.opa.toNat s.arch.opb.toNat s.work.euclid = .error c) : exec .modinv s = raise c s := by
  simp only [exec, execModinv, operandA, operandB, hu]

theorem execModinv_of_ok {s : State} {r : Nat}
    (hu : inverseUnit s.arch.opa.toNat s.arch.opb.toNat s.work.euclid = .ok r) :
    exec .modinv s = complete { s.arch with r := wordOf r } s := by
  simp only [exec, execModinv, operandA, operandB, hu]

/-- MODINV fails on a zero modulus, then on operands that are not coprime, and else completes with the inverse in R. -/
theorem execModinv_cases (s : State) :
    (s.arch.opb.toNat = 0 ∧ exec .modinv s = raise .divByZero s) ∨
    (s.arch.opb.toNat ≠ 0 ∧ Nat.gcd s.arch.opa.toNat s.arch.opb.toNat ≠ 1 ∧
      exec .modinv s = raise .notInvertible s) ∨
    (s.arch.opb.toNat ≠ 0 ∧ Nat.gcd s.arch.opa.toNat s.arch.opb.toNat = 1 ∧
      ∃ r, IsModinv s.arch.opa.toNat s.arch.opb.toNat r ∧ exec .modinv s = complete { s.arch with r := r } s) := by
  obtain ⟨hm, hu⟩ | ⟨hm, hgcd, hu⟩ | ⟨hm, hgcd, r, hu, hlt, hinv⟩ :=
    inverseUnit_cases s.arch.opa.toNat s.arch.opb.toNat s.work.euclid s.arch.opb.isLt
  · exact .inl ⟨hm, execModinv_of_error hu⟩
  · exact .inr (.inl ⟨hm.ne', hgcd, execModinv_of_error hu⟩)
  · exact .inr (.inr ⟨hm.ne', hgcd, _, wordOf_isModinv s.arch.opb.isLt hu hlt hinv, execModinv_of_ok hu⟩)

/-- Settles O25: the three cases of MODINV, each with the CMD write of its word. -/
theorem modinvWritesTheInverseOrSaysWhyNot : Obligations.ModinvWritesTheInverseOrSaysWhyNot := by
  rintro s num m rfl rfl
  obtain ⟨hm, h⟩ | ⟨hm, hgcd, h⟩ | ⟨hm, hgcd, r, hr, h⟩ := execModinv_cases s
  · exact ⟨fun _ => exec_failedWith h, fun hne => absurd hm hne, fun hne => absurd hm hne⟩
  · exact ⟨fun heq => absurd heq hm, fun _ _ => exec_failedWith h, fun _ hone => absurd hone hgcd⟩
  · exact ⟨fun heq => absurd heq hm, fun _ hne => absurd hgcd hne,
      fun _ _ => ⟨_, h, rfl, hr.core, hr.lt, hr.inverse, rfl, cmdWriteGives_of_exec h⟩⟩

/-- The register that a successful MODINV writes. -/
theorem execModinv_isModinv {s t : State} (h : exec .modinv s = .next t) (hdone : t.arch.done = true) :
    Nat.gcd s.arch.opa.toNat s.arch.opb.toNat = 1 ∧ IsModinv s.arch.opa.toNat s.arch.opb.toNat t.arch.r := by
  have failed {c : Cause} (hr : raise c s = .next t) : t.arch.done = false := by rw [raise_eq_next.1 hr]; rfl
  obtain ⟨-, hx⟩ | ⟨-, -, hx⟩ | ⟨-, hgcd, r, hr, hx⟩ := execModinv_cases s <;> rw [hx] at h
  · simp [failed h] at hdone
  · simp [failed h] at hdone
  · rw [complete_eq_next.1 h]
    exact ⟨hgcd, hr⟩

/-- Only one residue is the inverse of `num` modulo `m`. -/
theorem IsModinv.unique {num m r' : Nat} {r : Word} (h : IsModinv num m r) (hgcd : Nat.gcd num m = 1) (hlt : r' < m)
    (hinv : num * r' % m = 1 % m) : r' = r.toNat := by
  have hmul : num * r' ≡ num * r.toNat [MOD m] := hinv.trans h.inverse.symm
  exact (Nat.ModEq.cancel_left_of_coprime (Nat.gcd_comm m num ▸ hgcd) hmul).eq_of_lt_of_lt hlt h.lt

/-- Settles O26: `IsModinv.unique`, and modulo 1, where all operands are coprime, the only residue is 0. -/
theorem modinvResultIsTheOnlyInverse : Obligations.ModinvResultIsTheOnlyInverse := by
  refine ⟨fun s t hm h hdone => ?_, fun s hone => ?_⟩
  · obtain ⟨hgcd, hr⟩ := execModinv_isModinv h hdone
    have honemod : 1 % s.arch.opb.toNat = 1 := Nat.mod_eq_of_lt hm
    exact ⟨hr.lt, hr.inverse.trans honemod, fun r hlt hinv => hr.unique hgcd hlt (hinv.trans honemod.symm)⟩
  · have hm : s.arch.opb.toNat = 1 := congrArg BitVec.toNat hone
    obtain ⟨hzero, -⟩ | ⟨-, hgcd, -⟩ | ⟨-, -, r, hr, h⟩ := execModinv_cases s
    · omega
    · simp [hm] at hgcd
    · have hlt := hr.lt
      exact ⟨_, h, rfl, BitVec.eq_of_toNat_eq (show r.toNat = 0 by omega)⟩

end Sys2Proof.Machine

/-! MODEXP, KEYGEN, ENC, DEC and KEYCLR: their results, flags and frames (rules R143 to R153). -/

namespace Sys2Proof.Machine

/-! ### A power's residue in R -/

theorem powerUnit_of_zero (m : Nat) (e : Word) {n : Word} (w : PowerRegs) (hn : n = 0) :
    powerUnit m e.toNat n.toNat w = .error .divByZero :=
  if_pos (congrArg BitVec.toNat hn)

theorem powerUnit_of_ne_zero (m : Nat) (e : Word) {n : Word} (w : PowerRegs) (hn : n ≠ 0) :
    powerUnit m e.toNat n.toNat w = .ok (m ^ e.toNat % n.toNat) := by
  rw [powerUnit_eq w e.isLt, if_neg (toNat_pos_of_ne_zero hn).ne']

/-- The architectural state with the residue of OPA's power in R, the flags apart. -/
def powerArch (e n : Word) (s : State) : Arch :=
  { s.arch with r := wordOf (s.arch.opa.toNat ^ e.toNat % n.toNat) }

/-- A residue modulo a 32-bit word fits R. -/
theorem powerArch_r_toNat (e : Word) {n : Word} (s : State) (hn : n ≠ 0) :
    (powerArch e n s).r.toNat = s.arch.opa.toNat ^ e.toNat % n.toNat :=
  wordOf_toNat ((Nat.mod_lt _ (toNat_pos_of_ne_zero hn)).trans n.isLt)

/-- A command that completes with the residue of OPA's power delivers it in R and changes nothing else, and so does the
CMD write of its word. -/
theorem exec_deliversPower {i : Instr} {e n : Word} {s : State} (hn : n ≠ 0)
    (h : exec i s = complete (powerArch e n s) s) :
    ∃ t, exec i s = .next t ∧
      t.arch = { s.arch with r := t.arch.r, done := true, err := false, cause := .none } ∧
      t.arch.r.toNat = s.arch.opa.toNat ^ e.toNat % n.toNat ∧
      t.host = s.host ∧ CmdWriteGives (encode i) (opc4 (encode i)) s t :=
  ⟨_, h, rfl, powerArch_r_toNat e s hn, rfl, cmdWriteGives_of_exec h⟩

/-! ### MODEXP (rules R143, R144) -/

theorem execModexp_of_zero {s : State} (hn : s.arch.opc = 0) : exec .modexp s = raise .divByZero s := by
  simp only [exec, execModexp, operandA, operandB, operandC, powerUnit_of_zero _ _ _ hn]

theorem execModexp_of_ne_zero {s : State} (hn : s.arch.opc ≠ 0) :
    exec .modexp s = complete (powerArch s.arch.opb s.arch.opc s) s := by
  simp only [exec, execModexp, operandA, operandB, operandC, powerUnit_of_ne_zero _ _ _ hn, powerArch]

/-- Settles O27: the two equations of MODEXP, each with the CMD write of its word. -/
theorem modexpWritesThePowersResidue : Obligations.ModexpWritesThePowersResidue :=
  fun _ => ⟨fun hn => exec_deliversPower hn (execModexp_of_ne_zero hn),
    fun hn => exec_failedWith (execModexp_of_zero hn)⟩

/-- The register that a successful MODEXP writes. -/
theorem execModexp_r_toNat {s t : State} (hn : s.arch.opc ≠ 0) (h : exec .modexp s = .next t) :
    t.arch.r.toNat = s.arch.opa.toNat ^ s.arch.opb.toNat % s.arch.opc.toNat := by
  rw [execModexp_of_ne_zero hn, complete_eq_next] at h
  rw [h]
  exact powerArch_r_toNat _ s hn

/-- Settles O28: the laws of powers of the naturals, read in the register by `execModexp_r_toNat`. -/
theorem modexpObeysTheLawsOfPowers : Obligations.ModexpObeysTheLawsOfPowers := by
  refine ⟨fun s t hn h => ?_, fun s₁ s₂ s₃ t₁ t₂ t₃ hn hn₂ hn₃ h₁ h₂ h₃ => ?_⟩
  · have hr := execModexp_r_toNat hn h
    exact ⟨hr ▸ Nat.mod_lt _ (toNat_pos_of_ne_zero hn), hr⟩
  · have hr₁ := execModexp_r_toNat hn h₁
    have hr₂ := execModexp_r_toNat (hn₂ ▸ hn) h₂
    have hr₃ := execModexp_r_toNat (hn₃ ▸ hn) h₃
    rw [hn₂] at hr₂
    rw [hn₃] at hr₃
    refine ⟨fun ha₂ ha₃ hsum => ?_, fun ha₂ ha₃ hprod => BitVec.eq_of_toNat_eq ?_⟩
    · rw [hr₃, hr₂, hr₁, ha₂, ha₃, hsum, pow_add, Nat.mul_mod]
    · rw [hr₃, hr₂, ha₂, ha₃, hprod, hr₁, pow_mul, ← Nat.pow_mod]

/-! ### KEYGEN (rule R146) -/

/-- The product `(p - 1)·(q - 1)` of KEYGEN's operands (rule R145). -/
def keygenPhi (s : State) : Nat := (s.arch.opc.toNat - 1) * (s.arch.opd.toNat - 1)

/-- The architectural state with KEYGEN's key pair in the slot (rule R146), the flags apart. -/
def keygenArch (d : Word) (s : State) : Arch :=
  { s.arch with kn := s.arch.opa, ke := s.arch.opb, kd := d, kvalid := true }

/-- What KEYGEN does with the answer of the inverse unit. -/
def keygenAnswer (s : State) : Except Cause Nat → Result
  | .error c => raise c s
  | .ok d => complete (keygenArch (wordOf d) s) s

theorem inverseUnit_of_not_coprime {num m : Nat} (w : EuclidRegs) (hpos : 0 < m) (hlt : m < 2 ^ 32)
    (hgcd : Nat.gcd num m ≠ 1) : inverseUnit num m w = .error .notInvertible := by
  obtain ⟨hg, -⟩ := xgcdCore_spec (a := num) w hpos hlt
  exact (if_neg hpos.ne').trans (if_pos (hg.trans_ne hgcd))

theorem exists_inverseUnit_eq_ok {num m : Nat} (w : EuclidRegs) (hpos : 0 < m) (hlt : m < 2 ^ 32)
    (hgcd : Nat.gcd num m = 1) : ∃ r, inverseUnit num m w = .ok r ∧ IsModinv num m (wordOf r) := by
  obtain ⟨hzero, -⟩ | ⟨-, hne, -⟩ | ⟨-, -, r, hu, hr, hinv⟩ := inverseUnit_cases num m w hlt
  · exact absurd hzero hpos.ne'
  · exact absurd hgcd hne
  · exact ⟨r, hu, wordOf_isModinv hlt hu hr hinv⟩

theorem execKeygen_of_operandRange {s : State} (h : s.arch.opc.toNat = 0 ∨ s.arch.opd.toNat = 0) :
    exec .keygen s = raise .operandRange s := if_pos h

section KeygenOperandsNotZero

variable {s : State} (hp : s.arch.opc.toNat ≠ 0) (hq : s.arch.opd.toNat ≠ 0)
include hp hq

theorem execKeygen_of_overflow (h : 2 ^ 32 ≤ keygenPhi s) : exec .keygen s = raise .overflow s :=
  (if_neg (not_or.2 ⟨hp, hq⟩)).trans (if_pos h)

/-- When `phi` fits, KEYGEN is the inverse unit applied to `e` and `phi`. -/
theorem execKeygen_of_lt (hlt : keygenPhi s < 2 ^ 32) :
    exec .keygen s = keygenAnswer s (inverseUnit s.arch.opb.toNat (keygenPhi s) s.work.euclid) :=
  (if_neg (not_or.2 ⟨hp, hq⟩)).trans (if_neg (Nat.not_le.2 hlt))

theorem execKeygen_of_phi_zero (hphi : keygenPhi s = 0) : exec .keygen s = raise .divByZero s :=
  (execKeygen_of_lt hp hq (by omega)).trans (congrArg (keygenAnswer s) (if_pos hphi))

theorem execKeygen_of_not_coprime (hpos : 0 < keygenPhi s) (hlt : keygenPhi s < 2 ^ 32)
    (hgcd : Nat.gcd s.arch.opb.toNat (keygenPhi s) ≠ 1) : exec .keygen s = raise .notInvertible s :=
  (execKeygen_of_lt hp hq hlt).trans (congrArg (keygenAnswer s) (inverseUnit_of_not_coprime _ hpos hlt hgcd))

theorem execKeygen_of_coprime (hpos : 0 < keygenPhi s) (hlt : keygenPhi s < 2 ^ 32)
    (hgcd : Nat.gcd s.arch.opb.toNat (keygenPhi s) = 1) :
    ∃ d, IsModinv s.arch.opb.toNat (keygenPhi s) d ∧ exec .keygen s = complete (keygenArch d s) s := by
  obtain ⟨d, hu, hd⟩ := exists_inverseUnit_eq_ok s.work.euclid hpos hlt hgcd
  exact ⟨wordOf d, hd, (execKeygen_of_lt hp hq hlt).trans (congrArg (keygenAnswer s) hu)⟩

end KeygenOperandsNotZero

/-- Settles O30: the five equations of KEYGEN, each with the CMD write of its word. -/
theorem keygenDerivesThePrivateExponentOrSaysWhyNot : Obligations.KeygenDerivesThePrivateExponentOrSaysWhyNot := by
  rintro s e p q phi rfl rfl rfl rfl
  refine ⟨fun h => exec_failedWith (execKeygen_of_operandRange h),
    fun hp hq hle => exec_failedWith (execKeygen_of_overflow hp hq hle),
    fun hp hq hphi => exec_failedWith (execKeygen_of_phi_zero hp hq hphi),
    fun hp hq hpos hlt hgcd => exec_failedWith (execKeygen_of_not_coprime hp hq hpos hlt hgcd),
    fun hp hq hpos hlt hgcd => ?_⟩
  obtain ⟨d, hd, h⟩ := execKeygen_of_coprime hp hq hpos hlt hgcd
  exact ⟨_, h, rfl, hd.core, hd.lt, hd.inverse, rfl, cmdWriteGives_of_exec h⟩

/-! ### ENC and DEC (rules R149, R150, R153) -/

theorem keyPower_of_no_key (e : Word) {s : State} (hkey : s.arch.kvalid = false) : keyPower e s = raise .noKey s :=
  if_pos hkey

theorem keyPower_of_zero (e : Word) {s : State} (hkey : s.arch.kvalid = true) (hn : s.arch.kn = 0) :
    keyPower e s = raise .divByZero s := by
  simp only [keyPower, hkey, Bool.true_eq_false, if_false, powerUnit_of_zero _ _ _ hn]

theorem keyPower_of_ne_zero (e : Word) {s : State} (hkey : s.arch.kvalid = true) (hn : s.arch.kn ≠ 0) :
    keyPower e s = complete (powerArch e s.arch.kn s) s := by
  simp only [keyPower, hkey, Bool.true_eq_false, if_false, operandA, powerUnit_of_ne_zero _ _ _ hn, powerArch]

/-- What ENC and DEC share: the three cases of `keyPower`, each with the CMD write of the command's word. -/
theorem exec_keyPower_outcomes {i : Instr} {e : Word} {s : State} (h : exec i s = keyPower e s) :
    (s.arch.kvalid = false →
      ∃ t, exec i s = .next t ∧ FailedWith .noKey s t ∧ CmdWriteGives (encode i) (opc4 (encode i)) s t) ∧
    (s.arch.kvalid = true → s.arch.kn = 0 →
      ∃ t, exec i s = .next t ∧ FailedWith .divByZero s t ∧ CmdWriteGives (encode i) (opc4 (encode i)) s t) ∧
    (s.arch.kvalid = true → s.arch.kn ≠ 0 → ∃ t, exec i s = .next t ∧
      t.arch = { s.arch with r := t.arch.r, done := true, err := false, cause := .none } ∧
      t.arch.r.toNat = s.arch.opa.toNat ^ e.toNat % s.arch.kn.toNat ∧
      t.host = s.host ∧ CmdWriteGives (encode i) (opc4 (encode i)) s t) :=
  ⟨fun hkey => exec_failedWith (h.trans (keyPower_of_no_key e hkey)),
    fun hkey hn => exec_failedWith (h.trans (keyPower_of_zero e hkey hn)),
    fun hkey hn => exec_deliversPower hn (h.trans (keyPower_of_ne_zero e hkey hn))⟩

/-- Settles O31: ENC is `keyPower` with the public exponent. -/
theorem encRaisesToThePublicExponent : Obligations.EncRaisesToThePublicExponent :=
  fun _ => exec_keyPower_outcomes (i := .enc) rfl

/-- Settles O32: DEC is `keyPower` with the private exponent. -/
theorem decRaisesToThePrivateExponent : Obligations.DecRaisesToThePrivateExponent :=
  fun _ => exec_keyPower_outcomes (i := .dec) rfl

/-- A power's residue is that of the residue of its base (rule R142). -/
theorem powerArch_withOpa_r {m n : Word} (e : Word) {s : State} (hm : m.toNat = s.arch.opa.toNat % n.toNat) :
    (powerArch e n (withOpa m s)).r = (powerArch e n s).r := by
  simp only [powerArch, withOpa, hm, ← Nat.pow_mod]

/-- With a key held, `keyPower` completes on any code point and on its residue, with the same R. -/
theorem keyPower_withOpa {m : Word} (e : Word) {s : State} (hkey : s.arch.kvalid = true) (hn : s.arch.kn ≠ 0)
    (hm : m.toNat = s.arch.opa.toNat % s.arch.kn.toNat) :
    ∃ t u, keyPower e s = .next t ∧ keyPower e (withOpa m s) = .next u ∧ t.arch.done = true ∧ t.arch.r = u.arch.r :=
  ⟨_, _, keyPower_of_ne_zero e hkey hn, keyPower_of_ne_zero (s := withOpa m s) e hkey hn, rfl,
    (powerArch_withOpa_r e hm).symm⟩

/-- Settles O34: `keyPower_withOpa` at either exponent. -/
theorem largeCodePointsAreReducedWithoutError : Obligations.LargeCodePointsAreReducedWithoutError := by
  intro s m hkey hn hm
  obtain ⟨t, u, ht, hu, hdone, hr⟩ := keyPower_withOpa s.arch.ke hkey hn hm
  obtain ⟨v, w, hv, hw, hdone', hr'⟩ := keyPower_withOpa s.arch.kd hkey hn hm
  exact ⟨t, u, v, w, ht, hu, hdone, hr, hv, hw, hdone', hr'⟩

/-! ### KEYCLR (rule R151) -/

/-- Settles O33: KEYCLR completes unconditionally, and so does the CMD write of its word. -/
theorem keyclrAlwaysEmptiesTheKeySlot : Obligations.KeyclrAlwaysEmptiesTheKeySlot := by
  intro s
  have h : exec .keyclr s = complete { s.arch with kn := 0, ke := 0, kd := 0, kvalid := false } s := rfl
  exact ⟨_, h, rfl, rfl, cmdWriteGives_of_exec h⟩

end Sys2Proof.Machine

/-! Failed commands leave no partial result (rule R187). -/

namespace Sys2Proof.Machine

/-- A success clears ERR (rule R188). -/
theorem complete_err {a : Arch} {s t : State} (h : complete a s = .next t) : t.arch.err = false := by
  rw [complete_eq_next.1 h, endCommand_arch, flagSuccess_err]

/-- Error entry changes DONE, ERR and CAUSE alone (rule R187). -/
theorem failedWith_of_raise {c : Cause} {s t : State} (h : raise c s = .next t) : FailedWith c s t := by
  obtain rfl := raise_eq_next.1 h
  exact ⟨rfl, rfl⟩

/-- A command that sets ERR has entered an error, since completion would have cleared it. -/
theorem exec_failedWith_of_err {i : Instr} {s t : State} (h : exec i s = .next t) (herr : t.arch.err = true) :
    ∃ c, FailedWith c s t := by
  obtain ⟨c, -, hraise⟩ | ⟨a, hcomplete, -⟩ := exec_cases i s
  · exact ⟨c, failedWith_of_raise (hraise ▸ h)⟩
  · have hclear : t.arch.err = false := complete_err (hcomplete ▸ h)
    simp [hclear] at herr

/-- A CMD write that sets ERR, of an illegal word or of a command's, has latched LASTOP and then entered an error. -/
theorem cmdWrite_failedWith_of_err {v : Word} {s t : State} (h : cmdWrite v s = .next t) (herr : t.arch.err = true) :
    ∃ c, FailedWith c (latchLastop v s) t := by
  obtain ⟨-, -, hraise⟩ | ⟨i, -, hexec⟩ := cmdWrite_cases v s
  · exact ⟨.illegalCmd, failedWith_of_raise (hraise ▸ h)⟩
  · exact exec_failedWith_of_err (hexec ▸ h) herr

/-- Settles O38: by `cmdWrite_failedWith_of_err` the write is the latch of LASTOP and then one error entry. -/
theorem failedCommandsLeaveNoPartialResult : Obligations.FailedCommandsLeaveNoPartialResult := by
  intro s t v hstep herr
  rw [step_writingCmd] at hstep
  obtain ⟨c, harch, hhost⟩ := cmdWrite_failedWith_of_err hstep herr
  refine ⟨?_, hhost⟩
  rw [harch]
  rfl

end Sys2Proof.Machine

/-! What every command can raise and write (rules R24, R26, R116, R154, R180, R181), and the invariant over one step. -/

namespace Sys2Proof.Machine

/-! ### The causes of a command (rules R116, R154, R181) -/

/-- The causes in whose rows of rule R181 the command stands. -/
def raisedBy : Instr → List Cause
  | .gcd | .xgcd | .modexp => [.divByZero]
  | .modinv => [.divByZero, .notInvertible]
  | .keygen => [.operandRange, .overflow, .divByZero, .notInvertible]
  | .enc | .dec => [.noKey, .divByZero]
  | .keyclr => []

/-- KEYGEN raises one of its causes, or its `phi` is in range and it completes with the inverse of `e` in KD (rule
R146). -/
theorem execKeygen_cases (s : State) :
    (∃ c ∈ raisedBy .keygen, exec .keygen s = raise c s) ∨
    (keygenPhi s < 2 ^ 32 ∧ ∃ d, IsModinv s.arch.opb.toNat (keygenPhi s) d ∧
      exec .keygen s = complete (keygenArch d s) s) := by
  by_cases hzero : s.arch.opc.toNat = 0 ∨ s.arch.opd.toNat = 0
  · exact .inl ⟨_, by simp [raisedBy], execKeygen_of_operandRange hzero⟩
  obtain ⟨hp, hq⟩ := not_or.1 hzero
  obtain hover | hlt := le_or_gt (2 ^ 32) (keygenPhi s)
  · exact .inl ⟨_, by simp [raisedBy], execKeygen_of_overflow hp hq hover⟩
  obtain hphi | hpos := Nat.eq_zero_or_pos (keygenPhi s)
  · exact .inl ⟨_, by simp [raisedBy], execKeygen_of_phi_zero hp hq hphi⟩
  by_cases hgcd : Nat.gcd s.arch.opb.toNat (keygenPhi s) = 1
  · exact .inr ⟨hlt, execKeygen_of_coprime hp hq hpos hlt hgcd⟩
  · exact .inl ⟨_, by simp [raisedBy], execKeygen_of_not_coprime hp hq hpos hlt hgcd⟩

/-- What ENC and DEC share raises NO_KEY or DIV_BY_ZERO, or completes. -/
theorem keyPower_raises_or_completes (e : Word) (s : State) :
    (∃ c ∈ [Cause.noKey, .divByZero], keyPower e s = raise c s) ∨ ∃ a, keyPower e s = complete a s := by
  cases hkey : s.arch.kvalid with
  | false => exact .inl ⟨_, by simp, keyPower_of_no_key e hkey⟩
  | true =>
    by_cases hn : s.arch.kn = 0
    · exact .inl ⟨_, by simp, keyPower_of_zero e hkey hn⟩
    · exact .inr ⟨_, keyPower_of_ne_zero e hkey hn⟩

/-- A command raises one of its own causes or completes. -/
theorem exec_raises_or_completes (i : Instr) (s : State) :
    (∃ c ∈ raisedBy i, exec i s = raise c s) ∨ ∃ a, exec i s = complete a s := by
  cases i with
  | gcd =>
    by_cases hb : s.arch.opb = 0
    · exact .inl ⟨_, by simp [raisedBy], execGcd_of_zero hb⟩
    · exact .inr ⟨_, execGcd_of_ne_zero hb⟩
  | xgcd =>
    by_cases hb : s.arch.opb = 0
    · exact .inl ⟨_, by simp [raisedBy], execXgcd_of_zero hb⟩
    · exact .inr ⟨_, execXgcd_of_ne_zero hb⟩
  | modinv =>
    obtain ⟨-, h⟩ | ⟨-, -, h⟩ | ⟨-, -, r, -, h⟩ := execModinv_cases s
    · exact .inl ⟨_, by simp [raisedBy], h⟩
    · exact .inl ⟨_, by simp [raisedBy], h⟩
    · exact .inr ⟨_, h⟩
  | modexp =>
    by_cases hn : s.arch.opc = 0
    · exact .inl ⟨_, by simp [raisedBy], execModexp_of_zero hn⟩
    · exact .inr ⟨_, execModexp_of_ne_zero hn⟩
  | keygen =>
    obtain hraise | ⟨-, d, -, h⟩ := execKeygen_cases s
    · exact .inl hraise
    · exact .inr ⟨_, h⟩
  | enc | dec => exact keyPower_raises_or_completes _ s
  | keyclr => exact .inr ⟨_, rfl⟩

/-- The three flags of a command that succeeded (rule R188). -/
theorem complete_flags {a : Arch} {s t : State} (h : complete a s = .next t) :
    t.arch.done = true ∧ t.arch.err = false ∧ t.arch.cause = .none := by
  rw [complete_eq_next.1 h]
  exact ⟨rfl, rfl, rfl⟩

/-- The three flags of a command that raised `c` (rule R186). -/
theorem raise_flags {c : Cause} {s t : State} (h : raise c s = .next t) :
    t.arch.done = false ∧ t.arch.err = true ∧ t.arch.cause = c := by
  rw [raise_eq_next.1 h]
  exact ⟨rfl, rfl, rfl⟩

/-- The cause that a command leaves is none or one of its own. -/
theorem exec_cause_mem {i : Instr} {s t : State} (h : exec i s = .next t) :
    t.arch.cause ∈ Cause.none :: raisedBy i := by
  obtain ⟨c, hc, hraise⟩ | ⟨a, hcomplete⟩ := exec_raises_or_completes i s
  · obtain ⟨-, -, rfl⟩ := raise_flags (hraise ▸ h)
    exact List.mem_cons_of_mem _ hc
  · obtain ⟨-, -, hnone⟩ := complete_flags (hcomplete ▸ h)
    exact hnone ▸ List.mem_cons_self

/-- Settles O39: its lists are `.none :: raisedBy i`. -/
theorem eachCommandRaisesOnlyItsCauses : Obligations.EachCommandRaisesOnlyItsCauses := by
  intro i s t h
  have hmem := exec_cause_mem h
  cases i <;> exact hmem

/-- Settles O37: the two outcomes are those of `exec_cases`. -/
theorem everyCommandSucceedsOrFailsWithOneCause : Obligations.EveryCommandSucceedsOrFailsWithOneCause := by
  intro i s
  obtain ⟨c, hc, hraise⟩ | ⟨a, hcomplete, -⟩ := exec_cases i s
  · exact ⟨_, hraise, .inr ⟨rfl, rfl, hc⟩⟩
  · exact ⟨_, hcomplete, .inl ⟨rfl, rfl, rfl⟩⟩

/-! ### The registers of a command (rule R24) -/

/-- Outside DONE, ERR, CAUSE and LASTOP the two hold the same. -/
def SameButFlags (a b : Arch) : Prop :=
  b = { a with done := b.done, err := b.err, cause := b.cause, lastop := b.lastop }

theorem WritesOnly.refl (i : Instr) (a : Arch) : WritesOnly i a a := by cases i <;> rfl

/-- Whether it succeeds or fails, a command writes its own registers, the flags and nothing else. -/
theorem exec_writes {i : Instr} {s t : State} (h : exec i s = .next t) :
    ∃ a, WritesOnly i s.arch a ∧ SameButFlags a t.arch := by
  obtain ⟨c, -, hraise⟩ | ⟨a, hcomplete, hwrites⟩ := exec_cases i s
  · obtain rfl := raise_eq_next.1 (hraise ▸ h)
    exact ⟨s.arch, .refl i s.arch, rfl⟩
  · obtain rfl := complete_eq_next.1 (hcomplete ▸ h)
    exact ⟨a, hwrites, rfl⟩

/-- No command other than XGCD writes X or Y. -/
theorem WritesOnly.coefficients {i : Instr} {a b : Arch} (h : WritesOnly i a b) (hi : i ≠ .xgcd) :
    b.x = a.x ∧ b.y = a.y := by
  cases i with
  | xgcd => exact absurd rfl hi
  | _ => rw [h]; exact ⟨rfl, rfl⟩

/-- No command writes LASTOP: its CMD write has done so (rule R82). -/
theorem WritesOnly.lastop {i : Instr} {a b : Arch} (h : WritesOnly i a b) : b.lastop = a.lastop := by
  cases i <;> rw [h]

theorem exec_coefficients {i : Instr} {s t : State} (hi : i ≠ .xgcd) (h : exec i s = .next t) :
    t.arch.x = s.arch.x ∧ t.arch.y = s.arch.y := by
  obtain ⟨a, hwrites, hsame⟩ := exec_writes h
  rw [hsame]
  exact hwrites.coefficients hi

theorem exec_lastop {i : Instr} {s t : State} (h : exec i s = .next t) : t.arch.lastop = s.arch.lastop := by
  obtain ⟨c, -, hraise⟩ | ⟨a, hcomplete, hwrites⟩ := exec_cases i s
  · rw [(failedWith_of_raise (hraise ▸ h)).1]
  · obtain rfl := complete_eq_next.1 (hcomplete ▸ h)
    exact hwrites.lastop

/-! ### The invariant of the key slot (rules R27, R30, R31) -/

/-- The clauses of `ArchInv` about the key slot. -/
structure KeySlotInv (a : Arch) : Prop where
  emptySlot : a.kvalid = false → a.kn = 0 ∧ a.ke = 0 ∧ a.kd = 0
  heldPair : a.kvalid = true → KeyPairOf a.ke.toNat a.kd.toNat

theorem KeySlotInv.of_same {a b : Arch} (h : KeySlotInv a) (hsame : SameKeySlot a b) : KeySlotInv b := by
  obtain ⟨hkn, hke, hkd, hkv⟩ := hsame
  exact ⟨hkn ▸ hke ▸ hkd ▸ hkv ▸ h.emptySlot, hke ▸ hkd ▸ hkv ▸ h.heldPair⟩

theorem keySlotInv_of_empty {a : Arch} (hkv : a.kvalid = false) (hslot : a.kn = 0 ∧ a.ke = 0 ∧ a.kd = 0) :
    KeySlotInv a :=
  ⟨fun _ => hslot, fun htrue => by simp [hkv] at htrue⟩

/-- When `(p - 1)·(q - 1)` is not 0, both `p` and `q` are above 1. -/
theorem one_lt_of_pred_mul_pos {p q : Nat} (h : 0 < (p - 1) * (q - 1)) : 1 < p ∧ 1 < q := by
  have hp := Nat.pos_of_mul_pos_right h
  have hq := Nat.pos_of_mul_pos_left h
  omega

/-- What a KEYGEN that completes puts in KD makes a key pair with `e`. -/
theorem IsModinv.keyPairOf {s : State} {d : Word} (h : IsModinv s.arch.opb.toNat (keygenPhi s) d)
    (hlt : keygenPhi s < 2 ^ 32) : KeyPairOf s.arch.opb.toNat d.toNat := by
  obtain ⟨hp, hq⟩ := one_lt_of_pred_mul_pos (Nat.zero_lt_of_lt h.lt)
  exact ⟨s.arch.opc.toNat, s.arch.opd.toNat, hp, hq, s.arch.opc.isLt, s.arch.opd.isLt, hlt, h.lt, h.inverse⟩

/-- Every command keeps the invariant of the key slot. -/
theorem exec_keySlotInv {i : Instr} {s t : State} (hinv : KeySlotInv s.arch) (h : exec i s = .next t) :
    KeySlotInv t.arch := by
  by_cases hclr : i = .keyclr
  · subst hclr
    obtain rfl := complete_eq_next.1 h
    exact keySlotInv_of_empty rfl ⟨rfl, rfl, rfl⟩
  by_cases hgen : i = .keygen
  · subst hgen
    obtain ⟨c, -, hraise⟩ | ⟨hlt, d, hd, hcomplete⟩ := execKeygen_cases s
    · exact hinv.of_same (raise_sameKeySlot (hraise ▸ h))
    · obtain rfl := complete_eq_next.1 (hcomplete ▸ h)
      exact ⟨nofun, fun _ => hd.keyPairOf hlt⟩
  · exact hinv.of_same (exec_sameKeySlot hgen hclr h)

/-! ### The invariant of X and Y (rules R77, R106) -/

/-- The clauses of `ArchInv` about the Bezout registers. -/
structure CoefficientInv (a : Arch) : Prop where
  x : InCoefficientRange a.x
  y : InCoefficientRange a.y

/-- The bounds of rule R106 on what XGCD delivers. -/
theorem HoldsXgcd.withinBounds {a b : Nat} {g : Word} {x y : DWord} (h : HoldsXgcd a b g x y) (hb : 0 < b)
    (hlt : b < 2 ^ 32) : PairWithinBounds a b x.toInt y.toInt := by
  rw [h.x default, h.y default]
  exact (xgcdCore_spec default hb hlt).2.2

/-- Both delivered coefficients lie in `[−(2^31 − 1), 2^31 − 1]`. -/
theorem execXgcd_abs_le {s t : State} (hb : s.arch.opb ≠ 0) (h : exec .xgcd s = .next t) :
    |t.arch.x.toInt| ≤ 2 ^ 31 - 1 ∧ |t.arch.y.toInt| ≤ 2 ^ 31 - 1 := by
  have hpos := toNat_pos_of_ne_zero hb
  have hg := Nat.gcd_pos_of_pos_right s.arch.opa.toNat hpos
  obtain ⟨hx, hy⟩ := (execXgcd_holdsXgcd hb h).withinBounds hpos s.arch.opb.isLt
  exact ⟨pair_bound_range hg s.arch.opb.isLt hx, pair_bound_range hg s.arch.opa.isLt hy⟩

/-- Every command keeps the invariant of X and Y. -/
theorem exec_coefficientInv {i : Instr} {s t : State} (hinv : CoefficientInv s.arch) (h : exec i s = .next t) :
    CoefficientInv t.arch := by
  by_cases hi : i = .xgcd
  · subst hi
    by_cases hb : s.arch.opb = 0
    · obtain rfl := raise_eq_next.1 (execXgcd_of_zero hb ▸ h)
      exact ⟨hinv.x, hinv.y⟩
    · obtain ⟨hx, hy⟩ := execXgcd_abs_le hb h
      exact ⟨abs_le.1 hx, abs_le.1 hy⟩
  · obtain ⟨hx, hy⟩ := exec_coefficients hi h
    exact ⟨hx ▸ hinv.x, hy ▸ hinv.y⟩

/-! ### The invariant of the flags (rules R26, R82, R181) -/

/-- What a command that succeeded owes to the invariant beside its flags (rules R82, R188). -/
theorem archInv_of_succeeded {a : Arch} (hflags : a.done = true ∧ a.err = false ∧ a.cause = .none)
    (hop : 1 ≤ a.lastop.toNat ∧ a.lastop.toNat ≤ 8) (hkey : KeySlotInv a) (hxy : CoefficientInv a) : ArchInv a := by
  obtain ⟨hdone, herr, hcause⟩ := hflags
  exact {
    doneOrErr := by simp [herr]
    errIffCause := by simp [herr, hcause]
    quietIsFresh := by simp [hdone]
    doneNamesCommand := fun _ => hop
    causeFits := by rw [hcause]; exact decide_eq_true hop.2
    emptySlot := hkey.emptySlot
    heldPair := hkey.heldPair
    xRange := hxy.x
    yRange := hxy.y }

/-- What a CMD write that failed owes to the invariant beside its flags (rules R181, R186). -/
theorem archInv_of_failed {a : Arch} (hflags : a.done = false ∧ a.err = true ∧ a.cause ≠ .none)
    (hfits : causeFitsLastop a.cause a.lastop.toNat = true) (hkey : KeySlotInv a) (hxy : CoefficientInv a) :
    ArchInv a := by
  obtain ⟨hdone, herr, hcause⟩ := hflags
  exact {
    doneOrErr := by simp [hdone]
    errIffCause := by simp [herr, hcause]
    quietIsFresh := by simp [herr]
    doneNamesCommand := by simp [hdone]
    causeFits := hfits
    emptySlot := hkey.emptySlot
    heldPair := hkey.heldPair
    xRange := hxy.x
    yRange := hxy.y }

/-- The opcode of a command is one of 1 to 8 (rule R74). -/
theorem opc4_encode_range (i : Instr) : 1 ≤ (opc4 (encode i)).toNat ∧ (opc4 (encode i)).toNat ≤ 8 :=
  (passesLegalityTest_encode i).2

/-- The causes of a command stand in rule R181 beside its opcode. -/
theorem causeFitsLastop_of_mem_raisedBy (i : Instr) :
    ∀ c ∈ raisedBy i, causeFitsLastop c (opc4 (encode i)).toNat = true := by
  cases i <;> decide

theorem ne_none_of_mem_raisedBy (i : Instr) : ∀ c ∈ raisedBy i, c ≠ .none := by cases i <;> decide

/-! ### The invariant over one step -/

theorem ArchInv.keySlotInv {a : Arch} (h : ArchInv a) : KeySlotInv a := ⟨h.emptySlot, h.heldPair⟩

theorem ArchInv.coefficientInv {a : Arch} (h : ArchInv a) : CoefficientInv a := ⟨h.xRange, h.yRange⟩

theorem archInv_reset : ArchInv Arch.reset where
  doneOrErr := by decide
  errIffCause := by decide
  quietIsFresh _ _ := ⟨rfl, rfl, rfl, rfl, rfl, rfl, rfl, rfl, rfl⟩
  doneNamesCommand := by decide
  causeFits := by decide
  emptySlot := by decide
  heldPair := nofun
  xRange := by unfold InCoefficientRange; decide
  yRange := by unfold InCoefficientRange; decide

/-- The operands have no part in the invariant. -/
theorem ArchInv.storeReg {a : Arch} (h : ArchInv a) (v : Word) (reg : Reg) : ArchInv (storeReg a v reg) := by
  cases reg with
  | opa | opb | opc | opd =>
    exact ⟨h.doneOrErr, h.errIffCause, h.quietIsFresh, h.doneNamesCommand, h.causeFits, h.emptySlot, h.heldPair,
      h.xRange, h.yRange⟩
  | _ => exact h

/-- A command that runs with its own opcode in LASTOP sets the flags anew, so that of the invariant before it only the
key slot and the Bezout registers count. -/
theorem exec_archInv {i : Instr} {s t : State} (hop : s.arch.lastop = opc4 (encode i)) (hkey : KeySlotInv s.arch)
    (hxy : CoefficientInv s.arch) (h : exec i s = .next t) : ArchInv t.arch := by
  have hkey' := exec_keySlotInv hkey h
  have hxy' := exec_coefficientInv hxy h
  have hlast : t.arch.lastop = opc4 (encode i) := (exec_lastop h).trans hop
  obtain ⟨c, hc, hraise⟩ | ⟨a, hcomplete⟩ := exec_raises_or_completes i s
  · obtain ⟨hdone, herr, rfl⟩ := raise_flags (hraise ▸ h)
    refine archInv_of_failed ⟨hdone, herr, ne_none_of_mem_raisedBy i _ hc⟩ ?_ hkey' hxy'
    exact hlast ▸ causeFitsLastop_of_mem_raisedBy i _ hc
  · refine archInv_of_succeeded (complete_flags (hcomplete ▸ h)) ?_ hkey' hxy'
    exact hlast ▸ opc4_encode_range i

/-- A CMD write keeps the invariant, whether its word is illegal or a command's. -/
theorem cmdWrite_archInv {v : Word} {s t : State} (hinv : ArchInv s.arch) (h : cmdWrite v s = .next t) :
    ArchInv t.arch := by
  obtain ⟨-, -, hraise⟩ | ⟨i, hdec, hexec⟩ := cmdWrite_cases v s
  · obtain rfl := raise_eq_next.1 (hraise ▸ h)
    exact archInv_of_failed ⟨rfl, rfl, nofun⟩ rfl ⟨hinv.emptySlot, hinv.heldPair⟩ ⟨hinv.xRange, hinv.yRange⟩
  · obtain rfl := eq_encode_of_decode hdec
    exact exec_archInv (s := latchLastop (encode i) s) rfl ⟨hinv.emptySlot, hinv.heldPair⟩ ⟨hinv.xRange, hinv.yRange⟩
      (hexec ▸ h)

/-- Settles O47: of the five things a step can be, an idle step and a read leave the registers, a reset gives the reset
values, a write to another register than CMD reaches operands only, and the CMD write is `cmdWrite_archInv`. -/
theorem everyStepKeepsTheInvariant : Obligations.EveryStepKeepsTheInvariant := by
  intro s t hinv h
  obtain ⟨-, rfl⟩ | ⟨rest, -, rfl⟩ | ⟨reg, rest, -, rfl⟩ | ⟨reg, v, rest, -, -, rfl⟩ | ⟨v, rest, -, hw⟩ := step_cases h
  · exact hinv
  · exact archInv_reset
  · exact hinv
  · exact ArchInv.storeReg hinv v reg
  · exact cmdWrite_archInv (s := taking rest s) hinv hw

/-- Settles O46: every clause is checked on the reset values. -/
theorem resetStateMeetsTheInvariant : Obligations.ResetStateMeetsTheInvariant := archInv_reset

end Sys2Proof.Machine

/-! What a step answers: when it is refused (rules R53, R54), what it does to the host's lists (rules R59, R218), which
register it can change (rules R21 to R24) and what no step can see (rule R36). -/

namespace Sys2Proof.Machine

/-! ### The accesses that are refused (rules R53, R54) -/

theorem resolveAccess_of_width (kind : AccessKind) (offset : Nat) {bytes : Nat} (h : bytes ≠ 4) :
    resolveAccess { kind := kind, offset := offset, bytes := bytes } = .error .accessWidth := by
  simp [resolveAccess, HostAccess.wordWide, h]

theorem resolveAccess_of_misaligned (kind : AccessKind) {offset : Nat} (h : offset % 4 ≠ 0) :
    resolveAccess { kind := kind, offset := offset, bytes := 4 } = .error .misalignedAccess := by
  simp [resolveAccess, HostAccess.wordWide, HostAccess.aligned, h]

theorem Reg.offset_le (reg : Reg) : reg.offset ≤ 0x3C := by cases reg <;> decide

/-- No register has an offset beyond 0x3C (rule R70). -/
theorem Reg.atOffset_of_outside {offset : Nat} (h : 0x3C < offset) : Reg.atOffset offset = none := by
  refine Option.eq_none_iff_forall_ne_some.2 fun reg hreg => ?_
  exact absurd (Reg.atOffset_eq_some hreg ▸ h) (Nat.not_lt.2 (Reg.offset_le reg))

theorem resolveAccess_of_outside (kind : AccessKind) {offset : Nat} (halign : offset % 4 = 0) (h : 0x3C < offset) :
    resolveAccess { kind := kind, offset := offset, bytes := 4 } = .error .outsideBlock := by
  simp [resolveAccess, HostAccess.wordWide, HostAccess.aligned, halign, Reg.atOffset_of_outside h]

/-- The BCE accesses in numbers (rules R53, R54). -/
theorem HostAccess.wf_iff (a : HostAccess) : a.wf = true ↔ a.bytes = 4 ∧ a.offset % 4 = 0 ∧ a.offset ≤ 0x3C := by
  simp only [HostAccess.wf, HostAccess.wordWide, HostAccess.aligned, HostAccess.inBlock, Bool.and_eq_true, beq_iff_eq,
    decide_eq_true_eq, and_assoc]
  omega

/-- A step refuses its access under the name that the access resolves to. -/
theorem step_of_resolveAccess_error {s : State} {a : HostAccess} {rest : List HostEvent} {why : Refusal}
    (hp : s.host.pending = .access a :: rest) (h : resolveAccess a = .error why) : step s = .refused why := by
  rw [step_of_pending hp, hostEvent, hostAccess, h]

/-! ### Nothing else stops a step (rule R180) -/

theorem exec_eq_next (i : Instr) (s : State) : ∃ t, exec i s = .next t := by
  obtain ⟨c, -, h⟩ | ⟨a, h, -⟩ := exec_cases i s
  · exact ⟨_, h⟩
  · exact ⟨_, h⟩

theorem cmdWrite_eq_next (v : Word) (s : State) : ∃ t, cmdWrite v s = .next t := by
  obtain ⟨-, -, h⟩ | ⟨i, -, h⟩ := cmdWrite_cases v s
  · exact ⟨_, h⟩
  · exact h ▸ exec_eq_next i _

theorem regWrite_eq_next (reg : Reg) (v : Word) (s : State) : ∃ t, regWrite reg v s = .next t := by
  by_cases hcmd : reg = .cmd
  · obtain ⟨t, ht⟩ := cmdWrite_eq_next v s
    exact ⟨t, (if_pos hcmd).trans ht⟩
  · exact ⟨_, if_neg hcmd⟩

/-- A transaction of the block always answers a next state. -/
theorem hostAccess_eq_next {a : HostAccess} (h : a.wf = true) (s : State) : ∃ t, hostAccess a s = .next t := by
  obtain ⟨reg, hreg, -⟩ := resolveAccess_of_wf h
  obtain ⟨kind, offset, bytes⟩ := a
  rw [hostAccess, hreg]
  cases kind with
  | read => exact ⟨_, rfl⟩
  | write v => exact regWrite_eq_next reg v s

/-- With nothing pending the engine does nothing (rule R25). -/
theorem step_of_pending_nil {s : State} (hp : s.host.pending = []) : step s = .next s := by
  simp only [step, performNext, hp]

/-- A step is refused only for the access at the head of the host's list. -/
theorem step_eq_next_or_malformed (s : State) :
    (∃ t, step s = .next t) ∨ ∃ a rest, s.host.pending = .access a :: rest ∧ a.wf = false := by
  cases hp : s.host.pending with
  | nil => exact .inl ⟨s, step_of_pending_nil hp⟩
  | cons e rest =>
    rw [step_of_pending hp]
    cases e with
    | reset => exact .inl ⟨_, rfl⟩
    | access a =>
      cases hwf : a.wf with
      | true => exact .inl (hostAccess_eq_next hwf _)
      | false => exact .inr ⟨a, rest, rfl, hwf⟩

/-- The step that takes up an access is refused exactly when the access is malformed. -/
theorem step_refused_iff {s : State} {a : HostAccess} {rest : List HostEvent}
    (hp : s.host.pending = .access a :: rest) : (∃ why, step s = .refused why) ↔ ¬ a.wf = true := by
  constructor
  · rintro ⟨why, hrefused⟩ hwf
    obtain ⟨t, ht⟩ := hostAccess_eq_next hwf (taking rest s)
    have hnext : step s = .next t := (step_of_pending hp).trans ht
    rw [hrefused] at hnext
    cases hnext
  · intro hwf
    obtain ⟨why, hwhy⟩ := resolveAccess_of_not_wf (Bool.not_eq_true _ ▸ hwf)
    exact ⟨why, step_of_resolveAccess_error hp hwhy⟩

/-- Settles O10: `step_refused_iff` with `HostAccess.wf_iff`, the three names by how the access resolves, and
`step_eq_next_or_malformed`. -/
theorem onlyMalformedAccessesStopTheMachine : Obligations.OnlyMalformedAccessesStopTheMachine := by
  refine fun s => ⟨fun kind offset bytes rest hp => ⟨?_, fun hwidth => ?_, ?_, ?_⟩, step_eq_next_or_malformed s⟩
  · rw [step_refused_iff hp, HostAccess.wf_iff]
  · exact step_of_resolveAccess_error hp (resolveAccess_of_width kind offset hwidth)
  · rintro rfl halign
    exact step_of_resolveAccess_error hp (resolveAccess_of_misaligned kind halign)
  · rintro rfl halign hout
    exact step_of_resolveAccess_error hp (resolveAccess_of_outside kind halign hout)

/-! ### The host's lists (rules R59, R218) -/

/-- No command touches the host's lists. -/
theorem exec_host {i : Instr} {s t : State} (h : exec i s = .next t) : t.host = s.host := by
  obtain ⟨c, -, hraise⟩ | ⟨a, hcomplete, -⟩ := exec_cases i s
  · exact (failedWith_of_raise (hraise ▸ h)).2
  · obtain rfl := complete_eq_next.1 (hcomplete ▸ h)
    rfl

theorem cmdWrite_host {v : Word} {s t : State} (h : cmdWrite v s = .next t) : t.host = s.host := by
  obtain ⟨-, -, hraise⟩ | ⟨i, -, hexec⟩ := cmdWrite_cases v s
  · exact (failedWith_of_raise (s := latchLastop v s) (hraise ▸ h)).2
  · exact exec_host (s := latchLastop v s) (hexec ▸ h)

/-- Settles O11: the five things a step can be, each with what it does to the host's lists. -/
theorem stepsFollowTheOrderOfArrival : Obligations.StepsFollowTheOrderOfArrival := by
  refine ⟨fun _ => step_of_pending_nil, fun s t h => ?_⟩
  obtain ⟨hp, rfl⟩ | ⟨rest, hp, rfl⟩ | ⟨reg, rest, hp, rfl⟩ | ⟨reg, v, rest, -, hp, rfl⟩ | ⟨v, rest, hp, hw⟩ :=
    step_cases h
  · exact ⟨by rw [hp, List.tail_nil], .inl rfl⟩
  · exact ⟨by rw [hp]; rfl, .inl rfl⟩
  · exact ⟨by rw [hp]; rfl, .inr ⟨_, _, headIs_of_pending hp, rfl⟩⟩
  · exact ⟨by rw [hp]; rfl, .inl rfl⟩
  · rw [cmdWrite_host hw, hp]
    exact ⟨rfl, .inl rfl⟩

/-- The host reads the two halves of a register, the low one first, and assembles its value (rule R77). -/
theorem assemble_of_reads {lo hi : Reg} {s : State} {d : DWord} (hlo : regWord s.arch lo = loWord d)
    (hhi : regWord s.arch hi = hiWord d) :
    ∃ t u, step (reading lo.offset s) = .next t ∧ step (reading hi.offset t) = .next u ∧
      ∃ lo hi, u.host.returned[s.host.returned.length]? = some lo ∧
        u.host.returned[s.host.returned.length + 1]? = some hi ∧ assemble hi lo = d.toInt := by
  refine ⟨_, _, step_reading lo s, step_reading hi _, loWord d, hiWord d, ?_, ?_, ?_⟩
  · simp [hlo]
  · simp [hhi]
  · rw [assemble, hiWord_append_loWord]

/-- Settles O12: `assemble_of_reads` for the halves of X and of Y. -/
theorem hostAssemblesTheSignedPair : Obligations.HostAssemblesTheSignedPair := by
  rintro s n rfl
  exact ⟨assemble_of_reads (lo := .xLo) (hi := .xHi) rfl rfl, assemble_of_reads (lo := .yLo) (hi := .yHi) rfl rfl⟩

/-! ### Which step changes which register (rules R21 to R24, R29) -/

/-- A CMD write changes the flags and, if its word is a command's, the registers of that command. -/
theorem cmdWrite_writes {v : Word} {s t : State} (h : cmdWrite v s = .next t) :
    ∃ a, SameButFlags a t.arch ∧ (a = s.arch ∨ ∃ i, v = encode i ∧ WritesOnly i s.arch a) := by
  obtain ⟨-, -, hraise⟩ | ⟨i, hdec, hexec⟩ := cmdWrite_cases v s
  · obtain rfl := raise_eq_next.1 (hraise ▸ h)
    exact ⟨s.arch, rfl, .inl rfl⟩
  · rw [hexec, exec_latchLastop] at h
    obtain ⟨u, hu⟩ := exec_eq_next i s
    obtain ⟨a, hwrites, hsame⟩ := exec_writes hu
    rw [hu, latchResult, Host.Outcome.next.injEq] at h
    rw [← h]
    refine ⟨a, ?_, .inr ⟨i, eq_encode_of_decode hdec, hwrites⟩⟩
    rw [latchLastop_arch, hsame]
    rfl

/-- What a step that is no reset does to the architectural state: nothing, one write, or one CMD write. -/
theorem step_arch_cases {s t : State} (h : step s = .next t) (hreset : ¬ HeadIs .reset s) :
    t.arch = s.arch ∨
    (∃ reg v, HeadIs (wordAccess (.write v) reg.offset) s ∧ t.arch = storeReg s.arch v reg) ∨
    (∃ v a, HeadIs (commandEvent v) s ∧ SameButFlags a t.arch ∧
      (a = s.arch ∨ ∃ i, v = encode i ∧ WritesOnly i s.arch a)) := by
  obtain ⟨-, rfl⟩ | ⟨rest, hp, -⟩ | ⟨reg, rest, -, rfl⟩ | ⟨reg, v, rest, -, hp, rfl⟩ | ⟨v, rest, hp, hw⟩ := step_cases h
  · exact .inl rfl
  · exact absurd (headIs_of_pending hp) hreset
  · exact .inl rfl
  · exact .inr (.inl ⟨reg, v, headIs_of_pending hp, rfl⟩)
  · obtain ⟨a, hsame, hcases⟩ := cmdWrite_writes hw
    exact .inr (.inr ⟨v, a, headIs_of_pending hp, hsame, hcases⟩)

/-- The operand registers (rule R21). -/
def operandRegs : List Reg := [.opa, .opb, .opc, .opd]

theorem mem_operandRegs {reg : Reg} : reg ∈ operandRegs ↔ reg = .opa ∨ reg = .opb ∨ reg = .opc ∨ reg = .opd := by
  simp [operandRegs]

/-- A written operand register holds the word (rule R51). -/
theorem regWord_storeReg_same {reg : Reg} (hreg : reg ∈ operandRegs) (a : Arch) (v : Word) :
    regWord (storeReg a v reg) reg = v := by
  obtain rfl | rfl | rfl | rfl := mem_operandRegs.1 hreg <;> rfl

/-- A write leaves every register but its own (rule R51). -/
theorem regWord_storeReg_other {reg target : Reg} (hne : reg ≠ target) (a : Arch) (v : Word) :
    regWord (storeReg a v reg) target = regWord a target := by
  cases reg with
  | opa => cases target with | opa => exact absurd rfl hne | _ => rfl
  | opb => cases target with | opb => exact absurd rfl hne | _ => rfl
  | opc => cases target with | opc => exact absurd rfl hne | _ => rfl
  | opd => cases target with | opd => exact absurd rfl hne | _ => rfl
  | _ => rfl

/-- No command writes an operand register (rule R21). -/
theorem WritesOnly.operand {i : Instr} {a b : Arch} (h : WritesOnly i a b) {target : Reg}
    (htarget : target ∈ operandRegs) : regWord b target = regWord a target := by
  obtain rfl | rfl | rfl | rfl := mem_operandRegs.1 htarget <;> cases i <;> rw [h] <;> rfl

theorem SameButFlags.operand {a b : Arch} (h : SameButFlags a b) {target : Reg}
    (htarget : target ∈ operandRegs) : regWord b target = regWord a target := by
  obtain rfl | rfl | rfl | rfl := mem_operandRegs.1 htarget <;> rw [h] <;> rfl

/-- A step that changes an operand register is the write of its new word (rule R21). -/
theorem headIs_write_of_operand_changed {s t : State} (h : step s = .next t) (hreset : ¬ HeadIs .reset s) {target : Reg}
    (htarget : target ∈ operandRegs) (hne : regWord t.arch target ≠ regWord s.arch target) :
    HeadIs (wordAccess (.write (regWord t.arch target)) target.offset) s := by
  obtain harch | ⟨reg, v, hhead, harch⟩ | ⟨v, a, -, hsame, hcases⟩ := step_arch_cases h hreset
  · exact absurd (congrArg (regWord · target) harch) hne
  · by_cases hreg : reg = target
    · subst hreg
      rwa [harch, regWord_storeReg_same htarget]
    · exact absurd (harch ▸ regWord_storeReg_other hreg s.arch v) hne
  · refine absurd ((hsame.operand htarget).trans ?_) hne
    obtain rfl | ⟨i, -, hwrites⟩ := hcases
    · rfl
    · exact hwrites.operand htarget

/-- A step that changes something which neither an operand write nor the flags make up is the CMD write of a command
that writes it. -/
theorem exists_command_of_changed {α : Type} (f : Arch → α) (hstore : ∀ a v reg, f (storeReg a v reg) = f a)
    (hflags : ∀ a b, SameButFlags a b → f b = f a) {s t : State} (h : step s = .next t) (hreset : ¬ HeadIs .reset s)
    (hne : f t.arch ≠ f s.arch) :
    ∃ i a, HeadIs (commandEvent (encode i)) s ∧ WritesOnly i s.arch a ∧ f a ≠ f s.arch := by
  obtain harch | ⟨reg, v, -, harch⟩ | ⟨v, a, hhead, hsame, hcases⟩ := step_arch_cases h hreset
  · exact absurd (congrArg f harch) hne
  · exact absurd (harch ▸ hstore s.arch v reg) hne
  · rw [hflags a t.arch hsame] at hne
    obtain rfl | ⟨i, rfl, hwrites⟩ := hcases
    · exact absurd rfl hne
    · exact ⟨i, a, hhead, hwrites, hne⟩

/-- Only GCD and XGCD write G. -/
theorem WritesOnly.g {i : Instr} {a b : Arch} (h : WritesOnly i a b) (hne : b.g ≠ a.g) : i = .gcd ∨ i = .xgcd := by
  cases i with
  | gcd | xgcd => simp
  | _ => exact absurd (congrArg Arch.g h) hne

/-- Only MODINV, MODEXP, ENC and DEC write R. -/
theorem WritesOnly.r {i : Instr} {a b : Arch} (h : WritesOnly i a b) (hne : b.r ≠ a.r) :
    i = .modinv ∨ i = .modexp ∨ i = .enc ∨ i = .dec := by
  cases i with
  | modinv | modexp | enc | dec => simp
  | _ => exact absurd (congrArg Arch.r h) hne

/-- A step that changes G is a GCD or an XGCD (rule R22). -/
theorem headIs_command_of_g_changed {s t : State} (h : step s = .next t) (hreset : ¬ HeadIs .reset s)
    (hne : t.arch.g ≠ s.arch.g) :
    HeadIs (commandEvent (encode .gcd)) s ∨ HeadIs (commandEvent (encode .xgcd)) s := by
  obtain ⟨i, a, hhead, hwrites, hne'⟩ := exists_command_of_changed Arch.g (fun _ _ reg => by cases reg <;> rfl)
    (fun _ _ hsame => (congrArg Arch.g hsame :)) h hreset hne
  obtain rfl | rfl := hwrites.g hne'
  · exact .inl hhead
  · exact .inr hhead

/-- A step that changes R is a MODINV, a MODEXP, an ENC or a DEC (rule R22). -/
theorem headIs_command_of_r_changed {s t : State} (h : step s = .next t) (hreset : ¬ HeadIs .reset s)
    (hne : t.arch.r ≠ s.arch.r) :
    HeadIs (commandEvent (encode .modinv)) s ∨ HeadIs (commandEvent (encode .modexp)) s ∨
      HeadIs (commandEvent (encode .enc)) s ∨ HeadIs (commandEvent (encode .dec)) s := by
  obtain ⟨i, a, hhead, hwrites, hne'⟩ := exists_command_of_changed Arch.r (fun _ _ reg => by cases reg <;> rfl)
    (fun _ _ hsame => (congrArg Arch.r hsame :)) h hreset hne
  obtain rfl | rfl | rfl | rfl := hwrites.r hne'
  · exact .inl hhead
  · exact .inr (.inl hhead)
  · exact .inr (.inr (.inl hhead))
  · exact .inr (.inr (.inr hhead))

/-- The two Bezout registers. -/
def coefficients (a : Arch) : DWord × DWord := (a.x, a.y)

/-- A step that changes X or Y is an XGCD (rule R23). -/
theorem headIs_command_of_coefficients_changed {s t : State} (h : step s = .next t) (hreset : ¬ HeadIs .reset s)
    (hne : coefficients t.arch ≠ coefficients s.arch) : HeadIs (commandEvent (encode .xgcd)) s := by
  obtain ⟨i, a, hhead, hwrites, hne'⟩ := exists_command_of_changed coefficients (fun _ _ reg => by cases reg <;> rfl)
    (fun _ _ hsame => (congrArg coefficients hsame :)) h hreset hne
  by_cases hi : i = .xgcd
  · exact hi ▸ hhead
  · obtain ⟨hx, hy⟩ := hwrites.coefficients hi
    exact absurd (Prod.ext hx hy) hne'

/-- The fields of STATUS that every CMD write sets. -/
def commandFlags (a : Arch) : Bool × Bool × Cause × BitVec 4 := (a.done, a.err, a.cause, a.lastop)

/-- A step that changes a flag is a CMD write (rule R29). -/
theorem headIs_command_of_flags_changed {s t : State} (h : step s = .next t) (hreset : ¬ HeadIs .reset s)
    (hne : commandFlags t.arch ≠ commandFlags s.arch) : ∃ v, HeadIs (commandEvent v) s := by
  obtain harch | ⟨reg, v, -, harch⟩ | ⟨v, a, hhead, -⟩ := step_arch_cases h hreset
  · exact absurd (congrArg commandFlags harch) hne
  · rw [harch] at hne
    exact absurd (by cases reg <;> rfl) hne
  · exact ⟨v, hhead⟩

/-- Settles O40: one lemma for the operands and one for each group of results and flags. -/
theorem registersChangeOnlyByTheirWriters : Obligations.RegistersChangeOnlyByTheirWriters := by
  intro s t h hreset
  refine ⟨headIs_write_of_operand_changed (target := .opa) h hreset (by decide),
    headIs_write_of_operand_changed (target := .opb) h hreset (by decide),
    headIs_write_of_operand_changed (target := .opc) h hreset (by decide),
    headIs_write_of_operand_changed (target := .opd) h hreset (by decide),
    headIs_command_of_g_changed h hreset, headIs_command_of_r_changed h hreset, fun hne => ?_, fun hne => ?_⟩
  · refine headIs_command_of_coefficients_changed h hreset fun heq => ?_
    simp only [coefficients, Prod.mk.injEq] at heq
    simp [heq] at hne
  · refine headIs_command_of_flags_changed h hreset fun heq => ?_
    simp only [commandFlags, Prod.mk.injEq] at heq
    simp [heq] at hne

/-! ### Operand writes among themselves (rule R80) -/

/-- Words stored in two different operand registers may be stored in either order. -/
theorem storeReg_comm {reg reg' : Reg} (hreg : reg ∈ operandRegs) (hreg' : reg' ∈ operandRegs) (hne : reg ≠ reg')
    (a : Arch) (v w : Word) : storeReg (storeReg a v reg) w reg' = storeReg (storeReg a w reg') v reg := by
  obtain rfl | rfl | rfl | rfl := mem_operandRegs.1 hreg <;>
    obtain rfl | rfl | rfl | rfl := mem_operandRegs.1 hreg' <;> simp [storeReg] at hne ⊢

theorem ne_cmd_of_mem_operandRegs {reg : Reg} (h : reg ∈ operandRegs) : reg ≠ .cmd := by
  rintro rfl
  simp [operandRegs] at h

/-- Settles O13: the offsets are those of two operand registers, whose writes are `storeReg`. -/
theorem operandWritesCommute : Obligations.OperandWritesCommute := by
  intro s v w o₁ o₂ h₁ h₂ hne
  obtain ⟨reg₁, hreg₁, rfl⟩ := List.mem_map.1 (show o₁ ∈ operandRegs.map Reg.offset from h₁)
  obtain ⟨reg₂, hreg₂, rfl⟩ := List.mem_map.1 (show o₂ ∈ operandRegs.map Reg.offset from h₂)
  have hcmd₁ := ne_cmd_of_mem_operandRegs hreg₁
  have hcmd₂ := ne_cmd_of_mem_operandRegs hreg₂
  refine ⟨_, _, _, step_writing hcmd₁ v s, step_writing hcmd₂ w _, step_writing hcmd₂ w s, ?_⟩
  rw [step_writing hcmd₁, storeReg_comm hreg₁ hreg₂ (ne_of_apply_ne Reg.offset hne)]

end Sys2Proof.Machine

/-! The outcome of a command is a function of the registers it reads (rules R24, R37, R76, R152), so that no step shows
what the working registers held (rule R36). -/

namespace Sys2Proof.Machine

/-! ### The registers that a command reads and writes (rule R24) -/

/-- The two agree on the registers that rule R24 has `i` read. -/
def SameRead (i : Instr) (a b : Arch) : Prop :=
  match i with
  | .gcd | .xgcd | .modinv => a.opa = b.opa ∧ a.opb = b.opb
  | .modexp => a.opa = b.opa ∧ a.opb = b.opb ∧ a.opc = b.opc
  | .keygen => a.opa = b.opa ∧ a.opb = b.opb ∧ a.opc = b.opc ∧ a.opd = b.opd
  | .enc => a.opa = b.opa ∧ a.kn = b.kn ∧ a.ke = b.ke ∧ a.kvalid = b.kvalid
  | .dec => a.opa = b.opa ∧ a.kn = b.kn ∧ a.kd = b.kd ∧ a.kvalid = b.kvalid
  | .keyclr => True

/-- The two agree on the registers that rule R24 lets a successful `i` write. -/
def SameWritten (i : Instr) (a b : Arch) : Prop :=
  match i with
  | .gcd => a.g = b.g
  | .xgcd => a.g = b.g ∧ a.x = b.x ∧ a.y = b.y
  | .modinv | .modexp | .enc | .dec => a.r = b.r
  | .keygen | .keyclr => a.kn = b.kn ∧ a.ke = b.ke ∧ a.kd = b.kd ∧ a.kvalid = b.kvalid

theorem SameRead.refl (i : Instr) (a : Arch) : SameRead i a a := by cases i <;> simp [SameRead]

/-- The flags of success are no part of what `SameWritten` compares. -/
theorem SameWritten.flagSuccess {i : Instr} {a b : Arch} (h : SameWritten i a b) :
    SameWritten i (flagSuccess a) (flagSuccess b) := by
  cases i <;> exact h

/-- Writing the same words into the same state gives the same state. -/
theorem eq_of_sameWritten {i : Instr} {base a b : Arch} (ha : WritesOnly i base a) (hb : WritesOnly i base b)
    (h : SameWritten i a b) : a = b := by
  cases i with
  | gcd | modinv | modexp | enc | dec => rw [ha, hb, show _ = _ from h]
  | xgcd =>
    obtain ⟨hg, hx, hy⟩ := h
    rw [ha, hb, hg, hx, hy]
  | keygen | keyclr =>
    obtain ⟨hkn, hke, hkd, hkv⟩ := h
    rw [ha, hb, hkn, hke, hkd, hkv]

/-! ### Two runs of a command -/

/-- The answers `r` in `s` and `r'` in `s'` raise the same cause, or both complete with the same words in the registers
that `i` writes. -/
def AnswersAlike (i : Instr) (s s' : State) (r r' : Result) : Prop :=
  (∃ c, r = raise c s ∧ r' = raise c s') ∨
  (∃ a a', r = complete a s ∧ r' = complete a' s' ∧ WritesOnly i s.arch a ∧ WritesOnly i s'.arch a' ∧
    SameWritten i a a')

section TwoRuns

variable {s s' : State}

theorem execGcd_answersAlike (h : SameRead .gcd s.arch s'.arch) :
    AnswersAlike .gcd s s' (exec .gcd s) (exec .gcd s') := by
  obtain ⟨hopa, hopb⟩ := h
  by_cases hb : s.arch.opb = 0
  · exact .inl ⟨_, execGcd_of_zero hb, execGcd_of_zero (hopb ▸ hb)⟩
  · refine .inr ⟨_, _, execGcd_of_ne_zero hb, execGcd_of_ne_zero (hopb ▸ hb), rfl, rfl, ?_⟩
    simp [SameWritten, hopa, hopb]

theorem execXgcd_answersAlike (h : SameRead .xgcd s.arch s'.arch) :
    AnswersAlike .xgcd s s' (exec .xgcd s) (exec .xgcd s') := by
  obtain ⟨hopa, hopb⟩ := h
  by_cases hb : s.arch.opb = 0
  · exact .inl ⟨_, execXgcd_of_zero hb, execXgcd_of_zero (hopb ▸ hb)⟩
  · obtain ⟨-, hs, ht⟩ := xgcdCore_congr s.arch.opa.toNat s.arch.opb.toNat s.work.euclid s'.work.euclid
    refine .inr ⟨_, _, execXgcd_of_ne_zero hb, execXgcd_of_ne_zero (hopb ▸ hb), rfl, rfl, ?_⟩
    simp [SameWritten, xgcdArch, ← hopa, ← hopb, hs, ht]

theorem execModinv_answersAlike (h : SameRead .modinv s.arch s'.arch) :
    AnswersAlike .modinv s s' (exec .modinv s) (exec .modinv s') := by
  obtain ⟨hopa, hopb⟩ := h
  have hunit : inverseUnit s'.arch.opa.toNat s'.arch.opb.toNat s'.work.euclid =
      inverseUnit s.arch.opa.toNat s.arch.opb.toNat s.work.euclid := by
    rw [← hopa, ← hopb, inverseUnit_congr]
  cases hu : inverseUnit s.arch.opa.toNat s.arch.opb.toNat s.work.euclid with
  | error c => exact .inl ⟨c, execModinv_of_error hu, execModinv_of_error (hunit.trans hu)⟩
  | ok r => exact .inr ⟨_, _, execModinv_of_ok hu, execModinv_of_ok (hunit.trans hu), rfl, rfl, rfl⟩

theorem execModexp_answersAlike (h : SameRead .modexp s.arch s'.arch) :
    AnswersAlike .modexp s s' (exec .modexp s) (exec .modexp s') := by
  obtain ⟨hopa, hopb, hopc⟩ := h
  by_cases hn : s.arch.opc = 0
  · exact .inl ⟨_, execModexp_of_zero hn, execModexp_of_zero (hopc ▸ hn)⟩
  · refine .inr ⟨_, _, execModexp_of_ne_zero hn, execModexp_of_ne_zero (hopc ▸ hn), rfl, rfl, ?_⟩
    simp [SameWritten, powerArch, hopa, hopb, hopc]

/-- KEYGEN tests `p` and `q`, then `phi`, and then does what the inverse unit answers, all of them functions of the four
operands. -/
theorem execKeygen_answersAlike (h : SameRead .keygen s.arch s'.arch) :
    AnswersAlike .keygen s s' (exec .keygen s) (exec .keygen s') := by
  obtain ⟨hopa, hopb, hopc, hopd⟩ := h
  have hphi : keygenPhi s' = keygenPhi s := by rw [keygenPhi, keygenPhi, hopc, hopd]
  by_cases hzero : s.arch.opc.toNat = 0 ∨ s.arch.opd.toNat = 0
  · exact .inl ⟨_, execKeygen_of_operandRange hzero, execKeygen_of_operandRange (hopc ▸ hopd ▸ hzero)⟩
  obtain ⟨hp, hq⟩ := not_or.1 hzero
  have hp' : s'.arch.opc.toNat ≠ 0 := hopc ▸ hp
  have hq' : s'.arch.opd.toNat ≠ 0 := hopd ▸ hq
  obtain hover | hlt := le_or_gt (2 ^ 32) (keygenPhi s)
  · exact .inl ⟨_, execKeygen_of_overflow hp hq hover, execKeygen_of_overflow hp' hq' (hphi ▸ hover)⟩
  rw [execKeygen_of_lt hp hq hlt, execKeygen_of_lt hp' hq' (hphi ▸ hlt), hphi, ← hopb,
    inverseUnit_congr _ _ s'.work.euclid s.work.euclid]
  cases inverseUnit s.arch.opb.toNat (keygenPhi s) s.work.euclid with
  | error c => exact .inl ⟨c, rfl, rfl⟩
  | ok d => exact .inr ⟨_, _, rfl, rfl, rfl, rfl, hopa, hopb, rfl, rfl⟩

theorem keyPower_answersAlike {e e' : Word} (hopa : s.arch.opa = s'.arch.opa) (hkn : s.arch.kn = s'.arch.kn)
    (he : e = e') (hkv : s.arch.kvalid = s'.arch.kvalid) :
    AnswersAlike .enc s s' (keyPower e s) (keyPower e' s') := by
  cases hkey : s.arch.kvalid with
  | false => exact .inl ⟨_, keyPower_of_no_key e hkey, keyPower_of_no_key e' (hkv ▸ hkey)⟩
  | true =>
    by_cases hn : s.arch.kn = 0
    · exact .inl ⟨_, keyPower_of_zero e hkey hn, keyPower_of_zero e' (hkv ▸ hkey) (hkn ▸ hn)⟩
    · refine .inr ⟨_, _, keyPower_of_ne_zero e hkey hn, keyPower_of_ne_zero e' (hkv ▸ hkey) (hkn ▸ hn), rfl, rfl, ?_⟩
      simp [SameWritten, powerArch, hopa, hkn, he]

/-- Two states that agree on the registers a command reads answer it alike, whatever else they hold. -/
theorem exec_answersAlike {i : Instr} (h : SameRead i s.arch s'.arch) : AnswersAlike i s s' (exec i s) (exec i s') := by
  cases i with
  | gcd => exact execGcd_answersAlike h
  | xgcd => exact execXgcd_answersAlike h
  | modinv => exact execModinv_answersAlike h
  | modexp => exact execModexp_answersAlike h
  | keygen => exact execKeygen_answersAlike h
  | enc | dec =>
    obtain ⟨hopa, hkn, he, hkv⟩ := h
    exact keyPower_answersAlike hopa hkn he hkv
  | keyclr => exact .inr ⟨_, _, rfl, rfl, rfl, rfl, rfl, rfl, rfl, rfl⟩

/-- Both runs report the same in STATUS and, on success, write the same words. -/
theorem exec_sameOutcome {i : Instr} (h : SameRead i s.arch s'.arch) :
    ∃ t t', exec i s = .next t ∧ exec i s' = .next t' ∧ SameOutcome t t' ∧
      (t.arch.done = true → SameWritten i t.arch t'.arch) := by
  obtain ⟨c, hr, hr'⟩ | ⟨a, a', hc, hc', -, -, hwritten⟩ := exec_answersAlike h
  · exact ⟨_, _, hr, hr', ⟨rfl, rfl, rfl⟩, nofun⟩
  · exact ⟨_, _, hc, hc', ⟨rfl, rfl, rfl⟩, fun _ => hwritten.flagSuccess⟩

end TwoRuns

/-- Settles O42: `exec_sameOutcome` for each command. -/
theorem outcomesDependOnlyOnTheRegistersRead : Obligations.OutcomesDependOnlyOnTheRegistersRead := by
  intro s s'
  refine ⟨fun ha hb => ⟨exec_sameOutcome (i := .gcd) ⟨ha, hb⟩, exec_sameOutcome (i := .xgcd) ⟨ha, hb⟩,
      exec_sameOutcome (i := .modinv) ⟨ha, hb⟩⟩,
    fun ha hb hc => exec_sameOutcome (i := .modexp) ⟨ha, hb, hc⟩,
    fun ha hb hc hd => exec_sameOutcome (i := .keygen) ⟨ha, hb, hc, hd⟩,
    fun ha hn he hv => exec_sameOutcome (i := .enc) ⟨ha, hn, he, hv⟩,
    fun ha hn hd hv => exec_sameOutcome (i := .dec) ⟨ha, hn, hd, hv⟩, ?_⟩
  obtain ⟨t, t', ht, ht', hsame, hwritten⟩ := exec_sameOutcome (i := .keyclr) (s := s) (s' := s') trivial
  exact ⟨t, t', ht, ht', hsame, hwritten (complete_flags ht).1⟩

/-! ### The working registers (rule R36) -/

/-- The two states differ at most in what the working registers hold and which free value comes next. -/
def SameView (s s' : State) : Prop := s'.arch = s.arch ∧ s'.host = s.host

/-- Two answers with the same effect on the registers and the host, or the same refusal. -/
def SameEffect (r r' : Result) : Prop :=
  (∃ t u, r = .next t ∧ r' = .next u ∧ SameView t u) ∨ (∃ why, r = .refused why ∧ r' = .refused why)

section SameView

variable {s s' : State} (hview : SameView s s')
include hview

theorem raise_sameEffect (c : Cause) : SameEffect (raise c s) (raise c s') := by
  obtain ⟨harch, hhost⟩ := hview
  exact .inl ⟨_, _, rfl, rfl, by rw [endCommand_arch, endCommand_arch, harch], hhost⟩

theorem exec_sameEffect (i : Instr) : SameEffect (exec i s) (exec i s') := by
  have hread : SameRead i s.arch s'.arch := hview.1 ▸ SameRead.refl i s.arch
  obtain ⟨c, hr, hr'⟩ | ⟨a, a', hc, hc', ha, ha', hwritten⟩ := exec_answersAlike hread
  · rw [hr, hr']
    exact raise_sameEffect hview c
  · obtain rfl := eq_of_sameWritten ha (hview.1 ▸ ha') hwritten
    exact .inl ⟨_, _, hc, hc', rfl, hview.2⟩

theorem latchLastop_sameView (v : Word) : SameView (latchLastop v s) (latchLastop v s') :=
  ⟨by rw [latchLastop_arch, latchLastop_arch, hview.1], hview.2⟩

theorem cmdWrite_sameEffect (v : Word) : SameEffect (cmdWrite v s) (cmdWrite v s') := by
  have hlatched := latchLastop_sameView hview v
  rw [cmdWrite, cmdWrite]
  cases decode v with
  | error _ => exact raise_sameEffect hlatched .illegalCmd
  | ok i => exact exec_sameEffect hlatched i

theorem hostAccess_sameEffect (a : HostAccess) : SameEffect (hostAccess a s) (hostAccess a s') := by
  obtain ⟨harch, hhost⟩ := hview
  rw [hostAccess, hostAccess]
  cases resolveAccess a with
  | error why => exact .inr ⟨why, rfl, rfl⟩
  | ok reg =>
    cases a.kind with
    | read => exact .inl ⟨_, _, rfl, rfl, harch, by rw [returnWord_host, returnWord_host, harch, hhost]⟩
    | write v =>
      by_cases hcmd : reg = .cmd
      · subst hcmd
        exact cmdWrite_sameEffect ⟨harch, hhost⟩ v
      · exact .inl ⟨_, _, if_neg hcmd, if_neg hcmd, by rw [harch], hhost⟩

theorem hostEvent_sameEffect (e : HostEvent) : SameEffect (hostEvent e s) (hostEvent e s') := by
  cases e with
  | access a => exact hostAccess_sameEffect hview a
  | reset => exact .inl ⟨_, _, rfl, rfl, rfl, hview.2⟩

end SameView

/-- Settles O43: with other contents of the working registers the same event is performed in the same view. -/
theorem workingRegistersAreNeverObservable : Obligations.WorkingRegistersAreNeverObservable := by
  intro s w
  cases hp : s.host.pending with
  | nil => exact .inl ⟨s, { s with work := w }, step_of_pending_nil hp, step_of_pending_nil hp, rfl, rfl⟩
  | cons e rest =>
    rw [step_of_pending hp, step_of_pending (s := { s with work := w }) hp]
    exact hostEvent_sameEffect (s := taking rest s) (s' := taking rest { s with work := w }) ⟨rfl, rfl⟩ e

end Sys2Proof.Machine

/-! The loops: the pair that XGCD delivers and its bounds (rules R105, R106, R112), the passes of the Euclidean loops
(rule R104) and of the exponentiation loop (rule R142). -/

namespace Sys2Proof.Machine

/-! ### The pair by recursion on the Euclidean sequence (rules R105, R112) -/

/-- One step of the recurrence on each row: `(s, t)` becomes `(t, s - q·t)`. -/
def recurColumns (q : Nat) (w : EuclidRegs) : EuclidRegs :=
  { w with s0 := w.t0, t0 := w.s0 - q * w.t0, s1 := w.t1, t1 := w.s1 - q * w.t1 }

/-- A pass combines the two rows linearly, so that it commutes with a step of the recurrence on each. -/
theorem euclidShift_euclidDivide_recurColumns (q : Nat) (w : EuclidRegs) :
    euclidShift (euclidDivide (recurColumns q w)) = recurColumns q (euclidShift (euclidDivide w)) := by
  have hcolumn (z : Int) : w.s0 - q * w.t0 - z * (w.s1 - q * w.t1) = w.s0 - z * w.s1 - q * (w.t0 - z * w.t1) := by ring
  simp [recurColumns, euclidShift, euclidDivide, hcolumn]

theorem xgcdLoop_recurColumns (q fuel : Nat) (w : EuclidRegs) :
    xgcdLoop fuel (recurColumns q w) = recurColumns q (xgcdLoop fuel w) := by
  induction fuel generalizing w with
  | zero => rfl
  | succ fuel ih =>
    by_cases h : w.r0 % w.r1 = 0
    · rw [xgcdLoop_succ_of_mod_eq_zero fuel h]
      exact xgcdLoop_succ_of_mod_eq_zero fuel h
    · rw [xgcdLoop_succ_of_mod_ne_zero fuel h, ← ih, ← euclidShift_euclidDivide_recurColumns]
      exact xgcdLoop_succ_of_mod_ne_zero fuel h

/-- After the first pass the rows are those of the seeds of `(b, a mod b)`, one step of the recurrence further. -/
theorem euclidShift_euclidDivide_seed (a b : Nat) (w : EuclidRegs) :
    ∃ v, euclidShift (euclidDivide (xgcdSeed a b w)) = recurColumns (a / b) (xgcdSeed b (a % b) v) := by
  have hr2 : a - a / b * b = a % b := euclidDivide_r2 (xgcdSeed a b w)
  refine ⟨{ w with q := a / b, r2 := a % b }, ?_⟩
  simp [euclidShift, euclidDivide, xgcdSeed, recurColumns, hr2]

/-- When `b` does not divide `a`, the pair of `(a, b)` is one step of the recurrence from the pair of `(b, a mod b)`. -/
theorem xgcdCore_recurrence {a b : Nat} (w : EuclidRegs) (h : a % b ≠ 0) (hb : 0 < b) (hlt : b < 2 ^ 32) :
    (xgcdCore a b w).s1 = (xgcdCore b (a % b) w).t1 ∧
    (xgcdCore a b w).t1 = (xgcdCore b (a % b) w).s1 - (a / b : Nat) * (xgcdCore b (a % b) w).t1 := by
  obtain ⟨v, hfirst⟩ := euclidShift_euclidDivide_seed a b w
  have hcore : xgcdCore a b w = recurColumns (a / b) (xgcdLoop 63 (xgcdSeed b (a % b) v)) := by
    rw [← xgcdLoop_recurColumns, ← hfirst]
    exact xgcdLoop_succ_of_mod_ne_zero 63 h
  have hexits := xgcdCore_exits (a := a) w hb hlt
  rw [hcore] at hexits ⊢
  obtain ⟨hs, ht⟩ := xgcdLoop_succ_of_exits 63 (xgcdSeed b (a % b) v) hexits
  obtain ⟨-, hs', ht'⟩ := xgcdCore_congr b (a % b) w v
  rw [hs'.trans hs, ht'.trans ht]
  exact ⟨rfl, rfl⟩

/-- Settles O19: the registers hold what `xgcd_core` leaves, the seed row of `b` or the recurrence. -/
theorem xgcdPairObeysTheRecurrence : Obligations.XgcdPairObeysTheRecurrence := by
  intro s t hb h
  have hregs := execXgcd_holdsXgcd hb h
  refine ⟨fun hzero => ?_, fun hmod s' t' hopa hopb h' => ?_⟩
  · rw [hregs.x default, hregs.y default]
    exact xgcdCore_of_mod_eq_zero default hzero
  · have hb' : s'.arch.opb ≠ 0 := fun hzero => hmod (by rw [← hopb, hzero]; rfl)
    have hregs' := execXgcd_holdsXgcd hb' h'
    rw [hopa, hopb] at hregs'
    rw [hregs.x default, hregs.y default, hregs'.x default, hregs'.y default]
    exact xgcdCore_recurrence default hmod (toNat_pos_of_ne_zero hb) s.arch.opb.isLt

/-! ### The bounds of the delivered pair (rules R77, R106) -/

/-- A coefficient within `±(2^31 − 1)` is its low word, and its high word repeats the sign. -/
theorem halves_of_abs_le {d : DWord} (h : |d.toInt| ≤ 2 ^ 31 - 1) :
    hiWord d = (if d.toInt < 0 then 0xFFFFFFFF else 0) ∧ (loWord d).toInt = d.toInt := by
  have hrange := abs_le.1 h
  have hd := d.isLt
  have hlo := loWord_toNat d
  have hhi := hiWord_toNat d
  have hsign := BitVec.toInt_eq_toNat_cond d
  refine ⟨BitVec.eq_of_toNat_eq ?_, ?_⟩
  · have hmax : (0xFFFFFFFF : Word).toNat = 0xFFFFFFFF := rfl
    have hzero : (0 : Word).toNat = 0 := rfl
    rw [apply_ite BitVec.toNat, hhi, hmax, hzero]
    split_ifs at hsign ⊢ <;> omega
  · rw [BitVec.toInt_eq_toNat_cond (loWord d)]
    split_ifs at hsign ⊢ <;> omega

/-- Settles O21: `HoldsXgcd.withinBounds`, the range that follows, and the halves of a register in that range. -/
theorem deliveredCoefficientsAreBounded : Obligations.DeliveredCoefficientsAreBounded := by
  intro s t hb h
  obtain ⟨hx, hy⟩ := execXgcd_abs_le hb h
  obtain ⟨hxHi, hxLo⟩ := halves_of_abs_le hx
  obtain ⟨hyHi, hyLo⟩ := halves_of_abs_le hy
  have hbounds := (execXgcd_holdsXgcd hb h).withinBounds (toNat_pos_of_ne_zero hb) s.arch.opb.isLt
  exact ⟨hbounds, hx, hy, hxHi, hyHi, hxLo, hyLo⟩

/-- Settles O22: the rows' invariant holds after every pass and gives the bounds. -/
theorem everyRowIsACombinationWithinItsBound : Obligations.EveryRowIsACombinationWithinItsBound := by
  rintro a b passes w₀ w hb rfl
  have inv := xgcdLoop_rowInv passes (xgcdSeed_rowInv a b w₀ hb)
  have hbounds := inv.withinBounds
  exact ⟨inv.row0, inv.row1, inv.pos, hbounds, fun ha hb => ⟨row_bound_range hb hbounds.s0,
    row_bound_range ha hbounds.t0, row_bound_range hb hbounds.s1, row_bound_range ha hbounds.t1⟩⟩

/-! ### The passes of the Euclidean loops (rule R104) -/

/-- With a divisor below `2^L`, the extended loop exits within `2·L` passes with a zero remainder. -/
theorem xgcdLoop_settles (L k : Nat) (w : EuclidRegs) (hpos : 0 < w.r1) (hlt : w.r1 < 2 ^ L) :
    xgcdLoop (2 * L + k) w = xgcdLoop (2 * L) w ∧ (xgcdLoop (2 * L + k) w).r2 = 0 := by
  induction L generalizing w with
  | zero => omega
  | succ L ih =>
    have hlong : 2 * (L + 1) + k = 2 * L + k + 1 + 1 := by omega
    have hshort : 2 * (L + 1) = 2 * L + 1 + 1 := by omega
    rw [hlong, hshort]
    by_cases h : w.r0 % w.r1 = 0
    · rw [xgcdLoop_succ_of_mod_eq_zero _ h, xgcdLoop_succ_of_mod_eq_zero _ h]
      exact ⟨rfl, by rw [euclidDivide_r2, h]⟩
    rw [xgcdLoop_succ_of_mod_ne_zero _ h, xgcdLoop_succ_of_mod_ne_zero _ h]
    obtain ⟨v, hv⟩ : ∃ v, v = euclidShift (euclidDivide w) := ⟨_, rfl⟩
    have hr0 : v.r0 = w.r1 := by rw [hv, euclidShift_r0, euclidDivide_r1]
    have hr1 : v.r1 = w.r0 % w.r1 := by rw [hv, euclidShift_r1, euclidDivide_r2]
    rw [← hv]
    by_cases h' : v.r0 % v.r1 = 0
    · rw [xgcdLoop_succ_of_mod_eq_zero _ h', xgcdLoop_succ_of_mod_eq_zero _ h']
      exact ⟨rfl, by rw [euclidDivide_r2, h']⟩
    rw [xgcdLoop_succ_of_mod_ne_zero _ h', xgcdLoop_succ_of_mod_ne_zero _ h']
    have hhalf : 2 * (v.r0 % v.r1) < w.r1 := by
      rw [hr0, hr1]
      exact mod_mod_lt_half hpos h
    refine ih _ ?_ ?_ <;> rw [euclidShift_r1, euclidDivide_r2]
    · exact Nat.pos_of_ne_zero h'
    · rw [pow_succ] at hlt
      omega

/-- Settles O23: both loops settle by pass `2·L`, and they go through the same remainders. -/
theorem euclideanLoopsExitWithinTwicePerBit : Obligations.EuclideanLoopsExitWithinTwicePerBit := by
  intro a b L passes w hpos hlt hle
  obtain ⟨k, rfl⟩ := Nat.exists_eq_add_of_le hle
  obtain ⟨hgcd, hgcdZero⟩ := gcdLoop_settles L k { w with r0 := a, r1 := b } hpos hlt
  obtain ⟨hxgcd, hxgcdZero⟩ := xgcdLoop_settles L k (xgcdSeed a b w) hpos hlt
  exact ⟨hgcd, hxgcd, (xgcdLoop_remainders _ (xgcdSeed a b w) { w with r0 := a, r1 := b } rfl rfl).2, hgcdZero,
    hxgcdZero⟩

/-! ### The passes of the exponentiation loop (rule R142) -/

/-- A property that every pass keeps holds when the exponentiation loop is left. -/
theorem powerLoop_induction {P : PowerRegs → Prop} (hpass : ∀ w, P w → P (powerPass w)) (fuel : Nat) (w : PowerRegs)
    (h : P w) : P (powerLoop fuel w) := by
  induction fuel generalizing w with
  | zero => exact h
  | succ fuel ih =>
    by_cases hex : w.ex = 0
    · rwa [powerLoop, if_pos hex]
    · rw [powerLoop, if_neg hex]
      exact ih _ (hpass w h)

/-- Each pass takes one bit off the exponent. -/
theorem powerLoop_ex (fuel : Nat) (w : PowerRegs) : (powerLoop fuel w).ex = w.ex / 2 ^ fuel := by
  induction fuel generalizing w with
  | zero => rw [powerLoop, pow_zero, Nat.div_one]
  | succ fuel ih =>
    by_cases hex : w.ex = 0
    · rw [powerLoop, if_pos hex, hex, Nat.zero_div]
    · rw [powerLoop, if_neg hex, ih, powerPass_ex, Nat.div_div_eq_div_mul, pow_succ']

/-- What rule R142 says holds before and after every pass of `modexp_core` for the power `p` modulo `n`. -/
structure PowerInv (n p : Nat) (w : PowerRegs) : Prop where
  md : w.md = n
  acc : w.acc < n
  base : w.base < n
  power : w.acc * w.base ^ w.ex ≡ p [MOD n]

theorem powerSeed_powerInv (m e : Nat) {n : Nat} (w : PowerRegs) (hn : 0 < n) :
    PowerInv n (m ^ e) (powerSeed m e n w) where
  md := rfl
  acc := Nat.mod_lt _ hn
  base := Nat.mod_lt _ hn
  power := by
    show 1 % n * (m % n) ^ e ≡ m ^ e [MOD n]
    simpa using (Nat.mod_modEq 1 n).mul ((Nat.mod_modEq m n).pow e)

theorem PowerInv.pass {n p : Nat} {w : PowerRegs} (hn : 0 < n) (h : PowerInv n p w) : PowerInv n p (powerPass w) := by
  obtain ⟨rfl, hacc, -, hpower⟩ := h
  exact ⟨powerPass_md w, powerPass_acc_lt w hn hacc, powerPass_base_lt w hn, (powerPass_invariant w).trans hpower⟩

/-- Settles O29: `powerLoop_ex` and the invariant of rule R142 along the loop. -/
theorem exponentLoopTakesOnePassPerBit : Obligations.ExponentLoopTakesOnePassPerBit := by
  intro m e n passes w
  refine ⟨?_, fun hn => ?_⟩
  · rw [powerLoop_ex, Nat.size_le, Nat.div_eq_zero_iff_lt (by positivity)]
    rfl
  · obtain ⟨-, hacc, hbase, hpower⟩ :=
      powerLoop_induction (P := PowerInv n (m ^ e)) (fun _ => PowerInv.pass hn) passes _ (powerSeed_powerInv m e w hn)
    exact ⟨hacc, hbase, hpower⟩

end Sys2Proof.Machine

/-! Command words and addresses (rules R56, R74, R75, R79, R82), the commands after reset (rule R212), and the RSA round
trip with its counterexample (rule R148, passage K2). -/

namespace Sys2Proof.Machine

/-! ### Command words (rules R74, R75, R79, R82) -/

/-- Settles O1: each word is evaluated. -/
theorem commandWordsDecodeAsTheTableSays : Obligations.CommandWordsDecodeAsTheTableSays := by
  unfold Obligations.CommandWordsDecodeAsTheTableSays
  decide

/-- The step that performs the CMD write of a command's word latches LASTOP and runs the command (rule R82). -/
theorem step_of_command_pending {s : State} {v : Word} {i : Instr} {rest : List HostEvent}
    (hp : s.host.pending = commandEvent v :: rest) (hdec : decode v = .ok i) :
    step s = exec i (latchLastop v (taking rest s)) := by
  rw [step_of_pending hp, hostEvent_command, cmdWrite, hdec]

/-- A table row's bits select a command only as a word of 32 bits that decodes to it. -/
theorem tableWord_of_decodeTableWord {nbits w : Nat} {i : Instr} (h : decodeTableWord nbits w = some i) :
    tableBits nbits w < 2 ^ 32 ∧ decode (tableWord nbits w) = .ok i := by
  rw [decodeTableWord] at h
  split at h
  · rename_i hlt
    refine ⟨hlt, ?_⟩
    cases hdec : decode (tableWord nbits w) with
    | error e =>
      rw [hdec] at h
      cases h
    | ok j =>
      rw [hdec] at h
      cases h
      rfl
  · cases h

/-- OPC4 of a table row's word. -/
theorem opc4_tableWord {nbits w : Nat} (h : tableBits nbits w < 2 ^ 32) :
    opc4 (tableWord nbits w) = BitVec.ofNat 4 (w % 2 ^ nbits % 16) := by
  rw [opc4_eq_ofNat, tableWord, BitVec.toNat_ofNat, Nat.mod_eq_of_lt h, tableBits]

/-- Settles O5: both clauses are `step_of_command_pending`, with LASTOP by `opc4_eq_ofNat` and `opc4_tableWord`. -/
theorem stepRunsTheDecodedCommand : Obligations.StepRunsTheDecodedCommand := by
  refine ⟨fun s v i rest hp hdec => ?_, fun s nbits w i h => ?_⟩
  · rw [step_of_command_pending hp hdec, latchLastop, opc4_eq_ofNat]
    rfl
  · obtain ⟨hlt, hdec⟩ := tableWord_of_decodeTableWord h
    rw [State.withFetchWord, step_of_command_pending rfl hdec, taking_withEvent, latchLastop, opc4_tableWord hlt]
    rfl

/-- Settles O15: both lines are the CMD write of the command's word. -/
theorem bareMnemonicIsTheWriteOfItsWord : Obligations.BareMnemonicIsTheWriteOfItsWord := by
  refine fun i => ⟨?_, rfl⟩
  rw [lineEvent, lineEvent, wordOf, BitVec.ofNat_toNat, BitVec.setWidth_eq]
  rfl

/-! ### Addresses (rule R56) -/

theorem base_mod_four : Config.base % 4 = 0 := Nat.mul_mod_right 4 Config.baseWord

theorem busAddress_sub_base {address : Nat} (h : Config.base ≤ address) :
    busAddress (address - Config.base) = address := Nat.add_sub_cancel' h

/-- Settles O14: the two branches of `accessAtAddress`. -/
theorem blockIsSixtyFourBytesFromBase : Obligations.BlockIsSixtyFourBytesFromBase :=
  ⟨base_mod_four, fun _ _ _ => ⟨fun hin => ⟨_, if_pos hin, busAddress_sub_base hin.1, rfl, rfl⟩,
    fun hout => if_neg hout⟩⟩

/-! ### The commands after reset (rule R212) -/

/-- With OPB and OPC 0 and no key each command but KEYCLR raises the cause of the boot rule. -/
theorem exec_of_operands_zero {s : State} (hb : s.arch.opb = 0) (hc : s.arch.opc = 0) (hkey : s.arch.kvalid = false) :
    exec .gcd s = raise .divByZero s ∧ exec .xgcd s = raise .divByZero s ∧ exec .modinv s = raise .divByZero s ∧
    exec .modexp s = raise .divByZero s ∧ exec .keygen s = raise .operandRange s ∧ exec .enc s = raise .noKey s ∧
    exec .dec s = raise .noKey s := by
  have hb' : s.arch.opb.toNat = 0 := congrArg BitVec.toNat hb
  have hc' : s.arch.opc.toNat = 0 := congrArg BitVec.toNat hc
  exact ⟨execGcd_of_zero hb, execXgcd_of_zero hb, execModinv_of_error (if_pos hb'), execModexp_of_zero hc,
    execKeygen_of_operandRange (.inl hc'), keyPower_of_no_key _ hkey, keyPower_of_no_key _ hkey⟩

/-- Settles O45: the cause of each pair is the one that `exec_of_operands_zero` has its command raise. -/
theorem commandsAtResetReportTheirErrors : Obligations.CommandsAtResetReportTheirErrors := by
  intro s _ hb hc _ hkey i c hmem
  have hraise : exec i s = raise c s := by
    obtain ⟨hgcd, hxgcd, hmodinv, hmodexp, hkeygen, henc, hdec⟩ := exec_of_operands_zero hb hc hkey
    simp only [List.mem_cons, Prod.mk.injEq, List.not_mem_nil, or_false] at hmem
    obtain ⟨rfl, rfl⟩ | ⟨rfl, rfl⟩ | ⟨rfl, rfl⟩ | ⟨rfl, rfl⟩ | ⟨rfl, rfl⟩ | ⟨rfl, rfl⟩ | ⟨rfl, rfl⟩ := hmem <;>
      assumption
  exact hraise ▸ raise_failedWith c s

/-! ### ENC and DEC with a held key (rules R149, R150) -/

/-- The slot holds the modulus `n` with the exponents `e` and `d`. -/
structure HoldsKey (n e d : Word) (a : Arch) : Prop where
  kn : a.kn = n
  ke : a.ke = e
  kd : a.kd = d
  kvalid : a.kvalid = true

/-- With the key in the slot, `i` on the code point `m` is `keyPower` with the exponent `x`. -/
def RaisesTo (n e d : Word) (i : Instr) (x : Word) : Prop :=
  ∀ (m : Word) (s : State), HoldsKey n e d s.arch → exec i (withOpa m s) = keyPower x (withOpa m s)

theorem enc_raisesTo (n e d : Word) : RaisesTo n e d .enc e := fun m s h => h.ke ▸ (rfl : exec .enc (withOpa m s) = _)

theorem dec_raisesTo (n e d : Word) : RaisesTo n e d .dec d := fun m s h => h.kd ▸ (rfl : exec .dec (withOpa m s) = _)

/-- Such a command succeeds, delivers the power's residue and leaves the key. -/
theorem RaisesTo.delivers {n e d x : Word} {i : Instr} (hi : RaisesTo n e d i x) (hn : n ≠ 0) (m : Word) {s : State}
    (h : HoldsKey n e d s.arch) :
    ∃ t, exec i (withOpa m s) = .next t ∧ t.arch.done = true ∧ t.arch.r.toNat = m.toNat ^ x.toNat % n.toNat ∧
      HoldsKey n e d t.arch := by
  rw [hi m s h]
  obtain ⟨rfl, hke, hkd, hkv⟩ := h
  have hn' : (withOpa m s).arch.kn ≠ 0 := hn
  exact ⟨_, keyPower_of_ne_zero x (s := withOpa m s) hkv hn', rfl, powerArch_r_toNat x (withOpa m s) hn',
    rfl, hke, hkd, hkv⟩

/-! ### The RSA round trip (rule R148) -/

/-- Fermat: a power whose exponent is 1 modulo `p - 1` gives the base back modulo the prime `p`. -/
theorem pow_modEq_self_of_prime {p : Nat} (hp : p.Prime) (m k : Nat) : m ^ (1 + (p - 1) * k) ≡ m [MOD p] := by
  have : Fact p.Prime := ⟨hp⟩
  rw [← ZMod.natCast_eq_natCast_iff, Nat.cast_pow, pow_add, pow_one, pow_mul]
  by_cases hm : (m : ZMod p) = 0
  · rw [hm, zero_mul]
  · rw [ZMod.pow_card_sub_one_eq_one hm, one_pow, mul_one]

/-- Two distinct primes are not both 2, so `phi` is above 1. -/
theorem one_lt_pred_mul_pred {p q : Nat} (hp : p.Prime) (hq : q.Prime) (hne : p ≠ q) : 1 < (p - 1) * (q - 1) := by
  have hp2 := hp.two_le
  have hq2 := hq.two_le
  obtain hp3 | hq3 : 2 < p ∨ 2 < q := by omega
  · exact Nat.one_lt_mul_iff.2 (by omega)
  · exact Nat.one_lt_mul_iff.2 (by omega)

/-- Exponents that are inverse modulo `(p - 1)·(q - 1)` undo each other modulo `p·q`. -/
theorem pow_mul_modEq_self {p q e d : Nat} (hp : p.Prime) (hq : q.Prime) (hne : p ≠ q)
    (hinv : e * d % ((p - 1) * (q - 1)) = 1 % ((p - 1) * (q - 1))) (m : Nat) : m ^ (e * d) ≡ m [MOD p * q] := by
  rw [Nat.mod_eq_of_lt (one_lt_pred_mul_pred hp hq hne)] at hinv
  obtain ⟨k, hk⟩ : ∃ k, e * d = 1 + (p - 1) * (q - 1) * k := by
    have hdiv := Nat.mod_add_div (e * d) ((p - 1) * (q - 1))
    rw [hinv] at hdiv
    exact ⟨_, hdiv.symm⟩
  refine (Nat.modEq_and_modEq_iff_modEq_mul ((Nat.coprime_primes hp hq).2 hne)).1 ⟨?_, ?_⟩
  · rw [hk, Nat.mul_assoc]
    exact pow_modEq_self_of_prime hp m _
  · rw [hk, Nat.mul_comm (p - 1), Nat.mul_assoc]
    exact pow_modEq_self_of_prime hq m _

/-- Rule R148 in one direction: two commands that raise to exponents which undo each other give the code point back. -/
theorem RaisesTo.roundTrip {n e d x y : Word} {i j : Instr} (hi : RaisesTo n e d i x) (hj : RaisesTo n e d j y)
    (hn : n ≠ 0) {m : Word} (hundo : m.toNat ^ (x.toNat * y.toNat) ≡ m.toNat [MOD n.toNat]) {k : State}
    (h : HoldsKey n e d k.arch) :
    ∃ t u, exec i (withOpa m k) = .next t ∧ t.arch.done = true ∧
      exec j (withOpa t.arch.r t) = .next u ∧ u.arch.done = true ∧
      u.arch.r.toNat = m.toNat % n.toNat ∧ (m.toNat < n.toNat → u.arch.r = m) := by
  obtain ⟨t, ht, htdone, htr, hkey⟩ := hi.delivers hn m h
  obtain ⟨u, hu, hudone, hur, -⟩ := hj.delivers hn t.arch.r hkey
  have hback : u.arch.r.toNat = m.toNat % n.toNat := by
    rw [hur, htr, ← Nat.pow_mod, ← pow_mul]
    exact hundo
  exact ⟨t, u, ht, htdone, hu, hudone, hback,
    fun hlt => BitVec.eq_of_toNat_eq (hback.trans (Nat.mod_eq_of_lt hlt))⟩

/-- Settles O35: a KEYGEN that succeeded holds exponents that are inverse modulo `(p - 1)·(q - 1)`, which undo each
other in either order. -/
theorem rsaRoundTripReturnsTheCodePoint : Obligations.RsaRoundTripReturnsTheCodePoint := by
  rintro s k m p q hp hq hne hopa rfl rfl h hdone
  obtain ⟨hfailed, -⟩ | ⟨-, hslot⟩ := execKeygen_keySlot h
  · simp [hdone] at hfailed
  have hkey : HoldsKey s.arch.opa k.arch.ke k.arch.kd k.arch := ⟨hslot.kn, rfl, rfl, hslot.kvalid⟩
  have hn : s.arch.opa ≠ 0 := by
    intro hzero
    rw [hzero] at hopa
    exact (Nat.mul_pos hp.pos hq.pos).ne hopa
  have hundo := pow_mul_modEq_self hp hq hne (hslot.ke ▸ hslot.kd_inverse) m.toNat
  rw [← hopa] at hundo ⊢
  exact ⟨(enc_raisesTo _ _ _).roundTrip (dec_raisesTo _ _ _) hn hundo hkey,
    (dec_raisesTo _ _ _).roundTrip (enc_raisesTo _ _ _) hn (Nat.mul_comm k.arch.ke.toNat _ ▸ hundo) hkey⟩

/-! ### The round trip that equal primes lose (passage K2) -/

/-- With `e = 3` and `p = q = 3` KEYGEN succeeds, and KD is 3 as well. -/
theorem execKeygen_of_equal_primes {s : State} (hopb : s.arch.opb = 3) (hopc : s.arch.opc = 3) (hopd : s.arch.opd = 3) :
    exec .keygen s = complete (keygenArch 3 s) s := by
  have hphi : keygenPhi s = 4 := by rw [keygenPhi, hopc, hopd]; rfl
  have he : s.arch.opb.toNat = 3 := by rw [hopb]; rfl
  have hp : s.arch.opc.toNat ≠ 0 := by rw [hopc]; decide
  have hq : s.arch.opd.toNat ≠ 0 := by rw [hopd]; decide
  have hgcd : Nat.gcd s.arch.opb.toNat (keygenPhi s) = 1 := by rw [hphi, he]; decide
  obtain ⟨d, hd, h⟩ := execKeygen_of_coprime hp hq (by omega) (by omega) hgcd
  rw [hphi, he] at hd
  have hlt := hd.lt
  have hinv := hd.inverse
  have hthree : d = 3 := BitVec.eq_of_toNat_eq (show d.toNat = 3 by omega)
  rw [h, hthree]

/-- Settles O36: the cube of 3 is 0 modulo 9, and so is that of 0. -/
theorem roundTripFailsForEqualPrimes : Obligations.RoundTripFailsForEqualPrimes := by
  intro s hopa hopb hopc hopd
  have hkeygen := execKeygen_of_equal_primes hopb hopc hopd
  have hkey : HoldsKey 9 3 3 (endCommand (flagSuccess (keygenArch 3 s)) s).arch := ⟨hopa, hopb, rfl, rfl⟩
  have hn : (9 : Word) ≠ 0 := by decide
  obtain ⟨t, ht, -, htr, hkey'⟩ := (enc_raisesTo 9 3 3).delivers hn 3 hkey
  obtain ⟨u, hu, -, hur, -⟩ := (dec_raisesTo 9 3 3).delivers hn 0 hkey'
  exact ⟨_, t, u, hkeygen, rfl, rfl, ht, BitVec.eq_of_toNat_eq htr, hu, BitVec.eq_of_toNat_eq hur⟩

end Sys2Proof.Machine
